-- ==== Sys2Proof/Word.lean ====
section
/-! DEFINITION. The word types (00_scope.md R9): every value is unsigned, and arithmetic is exact
on naturals and reduced at the end. -/

namespace Sys2Proof

/-- `u32` of R9. -/
abbrev Word := BitVec 32

/-- `u8` of R9. -/
abbrev Byte := BitVec 8

/-- `nib` of R9. -/
abbrev Nibble := BitVec 4

/-- `wrap32(v) = v mod 2^32` (R9). -/
def wrap32 (v : Nat) : Word := BitVec.ofNat 32 v

end Sys2Proof
end

