-- ==== Sys2Proof/Config.lean ====
section
/-! DEFINITION. The implementation parameters of 00_scope.md R6. What they must satisfy (R8) and
what follows from them (T) stand in Machine/Elaborate.lean. -/

namespace Sys2Proof

/-- The two catalogs (R7, 20_memory.md R51). -/
inductive Cat where
  | A
  | B
  deriving DecidableEq, Repr, Inhabited

/-- A descriptor: its words up to and including END (30_encoding.md R70, R79). -/
abbrev Descriptor := List Word

/-- A catalog: exactly 7 descriptors in order (R7, 41_formula_eval.md R140). -/
structure Catalog where
  f0 : Descriptor
  f1 : Descriptor
  f2 : Descriptor
  f3 : Descriptor
  f4 : Descriptor
  f5 : Descriptor
  f6 : Descriptor
  deriving DecidableEq, Repr, Inhabited

/-- The parameters a model takes (R6). `T_SAMPLES` is computed from them; `MAX_OPS`,
`STACK_DEPTH` and `ID_CNT_MAX` have one value each and are the constants below. -/
structure Config where
  /-- `CAT_A`. -/
  catA : Catalog
  /-- `CAT_B`. -/
  catB : Catalog
  /-- `SAMPLE_RATE_HZ`, R. -/
  sampleRate : Nat
  /-- The numerator of `DURATION_S`, the positive rational D. -/
  durationNum : Nat
  /-- The denominator of `DURATION_S`. -/
  durationDen : Nat
  /-- `CLK_HZ`, F. -/
  clkHz : Nat
  /-- `EVAL_LATENCY`, L. -/
  evalLatency : Nat
  /-- `OUTPUT_BITS`: the sink's width, informative only. -/
  outputBits : Nat
  deriving DecidableEq, Repr, Inhabited

/-- `MAX_OPS`: the most words in a descriptor, END included (R6). -/
def maxOps : Nat := 64

/-- `STACK_DEPTH`: the deepest evaluation stack of a descriptor (R6). -/
def stackDepth : Nat := 16

/-- `ID_CNT_MAX`: where the identifier byte counter saturates (R6). -/
def idCntMax : Nat := 255

/-- The configuration this core was elaborated with, before the legality check. The spec leaves
every parameter OPEN (R6, 91 N1), so it has no value here and no proof can see one. -/
opaque Config.given : Config

end Sys2Proof
end

