-- ==== Sys2Proof/Syntax.lean ====
section
/-! DEFINITION. The instruction set of the formula evaluator: FDL v1, one constructor per row of
spec/opcode_table.json (30_encoding.md R72). -/

namespace Sys2Proof

/-- One word of a descriptor. `endOp` is the table's END. -/
inductive Instr where
  /-- END, op 0x00 (R101). -/
  | endOp
  /-- T, op 0x01 (R102). -/
  | t
  /-- CONST, op 0x02, with its 24-bit immediate (R103). -/
  | const (imm : BitVec 24)
  /-- AND, op 0x10 (R104). -/
  | and
  /-- OR, op 0x11 (R105). -/
  | or
  /-- XOR, op 0x12 (R106). -/
  | xor
  /-- ADD, op 0x20 (R107). -/
  | add
  /-- SUB, op 0x21 (R108). -/
  | sub
  /-- MUL, op 0x22 (R109). -/
  | mul
  /-- DIVU, op 0x23 (R110). -/
  | divu
  /-- MODU, op 0x24 (R111). -/
  | modu
  /-- SHL, op 0x30 (R112). -/
  | shl
  /-- SHR, op 0x31 (R113). -/
  | shr
  deriving DecidableEq, Repr

/-- How many stack entries a word pops (the stack effects of R72). -/
def Instr.pops : Instr → Nat
  | .endOp => 1
  | .t => 0
  | .const _ => 0
  | .and => 2
  | .or => 2
  | .xor => 2
  | .add => 2
  | .sub => 2
  | .mul => 2
  | .divu => 2
  | .modu => 2
  | .shl => 2
  | .shr => 2

end Sys2Proof
end

