-- ==== Sys2Proof/WellFormed.lean ====
section
/-! DEFINITION. Well-formedness of a decoded descriptor: the conditions (1), (2), (5), (6) and (7)
of 41_formula_eval.md R141, in one left-to-right pass. Conditions (3) and (4) are about the words
and stand in Decode.lean. An instruction alone is always well-formed: its one operand, CONST's
immediate, has exactly the 24 bits of its field. -/

namespace Sys2Proof

/-- Which condition of R141 a descriptor fails. -/
inductive DescriptorError where
  /-- (1): no word, or more than `MAX_OPS`. -/
  | badLength
  /-- (2): the last word is not END. -/
  | noEnd
  /-- (2): END stands before the last word. -/
  | endInside
  /-- (3): an opcode that R72 does not list. -/
  | reservedOpcode
  /-- (4): a non-zero immediate outside CONST. -/
  | nonzeroImm
  /-- (5): a binary word with fewer than two entries below it. -/
  | underflow
  /-- (6): more than `STACK_DEPTH` entries. -/
  | overflow
  /-- (7): a depth other than 1 at END. -/
  | endDepth
  deriving DecidableEq, Repr

/-- The pass of R141 (2), (5), (6), (7) from depth `d`. -/
def checkFrom : Nat → List Instr → Except DescriptorError Unit
  | _, [] => .error .noEnd
  | d, i :: rest =>
    match i with
    | .endOp =>
      if rest ≠ [] then .error .endInside
      else if d = 1 then .ok () else .error .endDepth
    | .t => if d < stackDepth then checkFrom (d + 1) rest else .error .overflow
    | .const _ => if d < stackDepth then checkFrom (d + 1) rest else .error .overflow
    | .and => if 2 ≤ d then checkFrom (d - 1) rest else .error .underflow
    | .or => if 2 ≤ d then checkFrom (d - 1) rest else .error .underflow
    | .xor => if 2 ≤ d then checkFrom (d - 1) rest else .error .underflow
    | .add => if 2 ≤ d then checkFrom (d - 1) rest else .error .underflow
    | .sub => if 2 ≤ d then checkFrom (d - 1) rest else .error .underflow
    | .mul => if 2 ≤ d then checkFrom (d - 1) rest else .error .underflow
    | .divu => if 2 ≤ d then checkFrom (d - 1) rest else .error .underflow
    | .modu => if 2 ≤ d then checkFrom (d - 1) rest else .error .underflow
    | .shl => if 2 ≤ d then checkFrom (d - 1) rest else .error .underflow
    | .shr => if 2 ≤ d then checkFrom (d - 1) rest else .error .underflow

/-- The checks of R141 on the decoded words. -/
def checkProgram (p : List Instr) : Except DescriptorError Unit :=
  if p = [] ∨ maxOps < p.length then .error .badLength else checkFrom 0 p

/-- The decoded descriptor `p` is well-formed. -/
def programWf (p : List Instr) : Bool := (checkProgram p).isOk

end Sys2Proof
end

