-- ==== Sys2Proof/Decode.lean ====
section
/-! DEFINITION. The format OPW (30_encoding.md R71), the decoder (total, rejecting by name) and the
encoder (R72), and the well-formedness check on a descriptor's words (41_formula_eval.md R141). -/

namespace Sys2Proof

/-- The field `op`, bits 31:24 (R71). -/
def opField (w : Word) : BitVec 8 := w.extractLsb' 24 8

/-- The field `imm`, bits 23:0 (R71). -/
def immField (w : Word) : BitVec 24 := w.extractLsb' 0 24

/-- A word other than CONST: its immediate must be 0 (R74). -/
def plainWord (i : Instr) (w : Word) : Except DescriptorError Instr :=
  if immField w = 0 then .ok i else .error .nonzeroImm

/-- The decoder: the opcode map of R72; every other opcode is reserved (R75). -/
def decode (w : Word) : Except DescriptorError Instr :=
  match opField w with
  | 0x00#8 => plainWord .endOp w
  | 0x01#8 => plainWord .t w
  | 0x02#8 => .ok (.const (immField w))
  | 0x10#8 => plainWord .and w
  | 0x11#8 => plainWord .or w
  | 0x12#8 => plainWord .xor w
  | 0x20#8 => plainWord .add w
  | 0x21#8 => plainWord .sub w
  | 0x22#8 => plainWord .mul w
  | 0x23#8 => plainWord .divu w
  | 0x24#8 => plainWord .modu w
  | 0x30#8 => plainWord .shl w
  | 0x31#8 => plainWord .shr w
  | _ => .error .reservedOpcode

/-- The opcode of each instruction (R72). -/
def opcodeOf : Instr → BitVec 8
  | .endOp => 0x00
  | .t => 0x01
  | .const _ => 0x02
  | .and => 0x10
  | .or => 0x11
  | .xor => 0x12
  | .add => 0x20
  | .sub => 0x21
  | .mul => 0x22
  | .divu => 0x23
  | .modu => 0x24
  | .shl => 0x30
  | .shr => 0x31

/-- The immediate of each instruction: CONST's, 0 in every other word (R73, R74). -/
def immOf : Instr → BitVec 24
  | .const imm => imm
  | .endOp => 0
  | .t => 0
  | .and => 0
  | .or => 0
  | .xor => 0
  | .add => 0
  | .sub => 0
  | .mul => 0
  | .divu => 0
  | .modu => 0
  | .shl => 0
  | .shr => 0

/-- The encoder: `{op, imm}` (R71). -/
def encode (i : Instr) : Word := opcodeOf i ++ immOf i

/-- Every word of a descriptor, decoded in order. -/
def decodeWords : List Word → Except DescriptorError (List Instr)
  | [] => .ok []
  | w :: ws =>
    match decode w with
    | .error e => .error e
    | .ok i =>
      match decodeWords ws with
      | .error e => .error e
      | .ok is => .ok (i :: is)

/-- The whole check of R141 on a word sequence, by the name of the condition that fails. -/
def checkDescriptor (ws : Descriptor) : Except DescriptorError Unit :=
  match decodeWords ws with
  | .error e => .error e
  | .ok p => checkProgram p

/-- `WF(P)` (R141). -/
def descriptorWf (ws : Descriptor) : Bool := (checkDescriptor ws).isOk

/-- The end of a descriptor in ROM is found by scanning for the first END word, at index at most
`MAX_OPS` - 1 (30_encoding.md R77); the words after it are never read (20_memory.md R51). -/
def scanFrom : Nat → List Word → Option Descriptor
  | 0, _ => none
  | _ + 1, [] => none
  | n + 1, w :: ws =>
    if opField w = 0x00 then some [w] else (scanFrom n ws).map (w :: ·)

/-- The descriptor that begins a ROM entry's words (R77). -/
def scanDescriptor (rom : List Word) : Option Descriptor := scanFrom maxOps rom

/-- The instruction the decoder reads from a table row's word: one 32-bit word, the bits above
`nbits` zero. -/
def decodeTableWord (nbits w : Nat) : Option Instr :=
  match decode (BitVec.ofNat 32 (w % 2 ^ nbits)) with
  | .ok i => some i
  | .error _ => none

end Sys2Proof
end

