-- ==== Sys2Proof/Machine/Elaborate.lean ====
section
/-! DEFINITION. Elaboration: what follows from the parameters and which configurations are legal
(00_scope.md R6, R8; 60_exceptions.md R231, R236). -/

namespace Sys2Proof.Machine

/-- Entry `i` of a catalog (41_formula_eval.md R140). -/
def catalogEntry (c : Catalog) (i : Fin 7) : Descriptor :=
  match i with
  | 0 => c.f0
  | 1 => c.f1
  | 2 => c.f2
  | 3 => c.f3
  | 4 => c.f4
  | 5 => c.f5
  | 6 => c.f6

/-- The catalog of a configuration: `CAT_A` or `CAT_B`. -/
def catalogOf (c : Config) (cat : Cat) : Catalog :=
  match cat with
  | .A => c.catA
  | .B => c.catB

/-- `CAT_A[i]` or `CAT_B[i]`. -/
def descriptorOf (c : Config) (cat : Cat) (i : Fin 7) : Descriptor :=
  catalogEntry (catalogOf c cat) i

/-- `RomRead(cat, i, k)` (00_scope.md R10, 20_memory.md R51). The words after END are don't-care
and are never read, so no word is given for them. -/
def romRead (c : Config) (cat : Cat) (i : Fin 7) (k : Nat) : Option Word :=
  (descriptorOf c cat i)[k]?

/-- The optional flat ROM address of 20_memory.md R51. No rule depends on it. -/
def flatAddr (cat : Cat) (i : Fin 7) (k : Nat) : Nat :=
  ((match cat with | .A => 0 | .B => 1) * 7 + i.val) * maxOps + k

/-- `T_SAMPLES = floor(R * D)` (00_scope.md R6). -/
def tSamples (c : Config) : Nat := c.sampleRate * c.durationNum / c.durationDen

/-- All 7 descriptors of a catalog satisfy `WF`. -/
def catalogWf (c : Catalog) : Bool :=
  descriptorWf c.f0 && descriptorWf c.f1 && descriptorWf c.f2 && descriptorWf c.f3 &&
    descriptorWf c.f4 && descriptorWf c.f5 && descriptorWf c.f6

/-- No E1: all 14 descriptors satisfy `WF` (R8, R231). -/
def descriptorsLegal (c : Config) : Bool := catalogWf c.catA && catalogWf c.catB

/-- No E2: the numeric constraints of R8, and D a positive rational (R6). -/
def parametersLegal (c : Config) : Bool :=
  decide (1 ≤ c.sampleRate ∧ 1 ≤ c.durationNum ∧ 1 ≤ c.durationDen ∧
    1 ≤ tSamples c ∧ tSamples c ≤ 2 ^ 32 - 1 ∧
    (c.evalLatency + 1) * c.sampleRate ≤ c.clkHz)

/-- A legal configuration (R8). -/
def configLegal (c : Config) : Bool := descriptorsLegal c && parametersLegal c

/-- A catalog whose 7 entries are one descriptor. -/
def uniformCatalog (d : Descriptor) : Catalog := ⟨d, d, d, d, d, d, d⟩

/-- A configuration of one-cycle samples whose 14 entries are one descriptor. -/
def uniformConfig (d : Descriptor) : Config :=
  { catA := uniformCatalog d, catB := uniformCatalog d, sampleRate := 1, durationNum := 1,
    durationDen := 1, clkHz := 1, evalLatency := 0, outputBits := 8 }

/-- The configuration of this core: the given one if it is legal. A legal configuration exists
(the spec's `T END` in every entry), and the core is elaborated only with a legal one (R8), so the
second branch stands only for a case the spec says has no machine. -/
def elaborated : Config :=
  if configLegal Config.given then Config.given
  else uniformConfig [encode .t, encode .endOp]

end Sys2Proof.Machine
end

