-- ==== Sys2Proof/Machine/State.lean ====
section
/-! DEFINITION. The state: every register of 10_state.md (R22 to R33), the evaluation context of
40_formula_ops.md R100, the configuration (00_scope.md R6) and the coming port values
(10_state.md R36). Plain data. -/

namespace Sys2Proof.Machine

/-- `st` (R22). The value 0b11 is unreachable and is left out, as 93 U1 asks. -/
inductive Session where
  | idle
  | render
  | done
  deriving DecidableEq, Repr

/-- The triple `(v, dz, sa)` that an evaluation returns (41_formula_eval.md R142). -/
structure Result where
  v : Word
  dz : Bool
  sa : Bool
  deriving DecidableEq, Repr

/-- Where the evaluator stands in the combiner's two evaluations (43_renderer.md R191).
DESIGN CHOICE, log entry 1. -/
inductive Phase where
  /-- No evaluation is under way. -/
  | rest
  /-- Formula A is being evaluated, or has returned and formula B has not begun. -/
  | formulaA
  /-- Formula A returned `ra`; formula B is being evaluated, or has returned. -/
  | formulaB (ra : Result)
  deriving DecidableEq, Repr

/-- The evaluation context (R100, R142). DESIGN CHOICE, log entry 1: a field of State. -/
structure Evaluator where
  phase : Phase
  /-- The index of the next word, `k` of R142. -/
  k : Nat
  /-- The stack `S`, its top first. -/
  stack : List Word
  dz : Bool
  sa : Bool
  /-- What END returned, if the evaluation has ended. -/
  result : Option Result
  deriving DecidableEq, Repr

/-- The beginning of an evaluation: empty stack, both flags 0, k = 0 (R142). -/
def Evaluator.start (p : Phase) : Evaluator :=
  { phase := p, k := 0, stack := [], dz := false, sa := false, result := none }

/-- The evaluator between evaluations. -/
def Evaluator.rest : Evaluator := Evaluator.start .rest

/-- The input ports in one clock cycle (10_state.md R36). `clk` is the step itself. -/
structure PortIn where
  rst : Bool
  idValid : Bool
  idData : Byte
  idLast : Bool
  deriving DecidableEq, Repr

/-- Ports on which nothing is offered. -/
def PortIn.quiet : PortIn := { rst := false, idValid := false, idData := 0, idLast := false }

/-- The machine's state. -/
structure State where
  /-- The elaborated parameters, the formula ROM among them (R32). No step writes it. -/
  cfg : Config
  /-- The input ports' values in this clock cycle and the coming ones, one entry a cycle; quiet
  after the last (log entry 3). -/
  inputs : List PortIn
  /-- R22. -/
  st : Session
  /-- R23. -/
  accA : Fin 7
  /-- R23. -/
  accB : Fin 7
  /-- R24. -/
  idCnt : BitVec 8
  /-- R25. -/
  idxA : Fin 7
  /-- R25. -/
  idxB : Fin 7
  /-- R26. -/
  idLen : BitVec 8
  /-- R27. -/
  nonstd : Bool
  /-- R28. -/
  t : Word
  /-- R29. -/
  pace : Int
  /-- R30. -/
  lat : Nat
  /-- R31. -/
  sv : Bool
  /-- R31. -/
  sd : Word
  /-- R31. -/
  si : Word
  /-- R33. -/
  degen : Bool
  /-- R33. -/
  shamt : Bool
  /-- R100. -/
  ev : Evaluator
  deriving DecidableEq, Repr

/-- Why the machine stops with a fault. The core itself has no faults (60_exceptions.md R230);
R236 says that the spec gives these no run-time behaviour. -/
inductive Fault where
  /-- Raised by a word that pops from a stack with too few entries. No step from a state that
  satisfies the model's invariant raises it. Safe. -/
  | stackUnderflow
  /-- Raised by T and CONST on a stack of `STACK_DEPTH` entries. No step from a state that
  satisfies the model's invariant raises it. Safe. -/
  | stackOverflow
  /-- Raised by the step when the evaluator stands past the last word of a descriptor. No step
  from a state that satisfies the model's invariant raises it. Safe. -/
  | unterminated
  deriving DecidableEq, Repr

/-- Why the model refuses. -/
inductive Refusal where
  /-- Raised by exec for an instruction without a meaning. Safe. -/
  | notModelled (mnemonic : String)
  /-- E1 ILLEGAL_DESCRIPTOR (60_exceptions.md R231): raised by the step; a catalog descriptor
  fails `WF`. Safe. -/
  | illegalDescriptor
  /-- E2 ILLEGAL_CONFIG (R231): raised by the step; a parameter constraint of 00_scope.md R8
  fails. Safe. -/
  | illegalConfig
  /-- Raised by the step for a word that does not decode (30_encoding.md R74, R75). A legal
  configuration holds none. Safe. -/
  | malformedWord (e : DescriptorError)
  deriving DecidableEq, Repr

/-- The outcome of an instruction or a step. -/
abbrev Outcome := Host.Outcome State Fault Refusal

/-- The next state, if there is one. -/
def nextOf (o : Outcome) : Option State :=
  match o with
  | .next s => some s
  | .fault _ => none
  | .refused _ => none

/-- The registers after a reset edge (10_state.md R38), for a configuration and port values. -/
def State.resetWith (cfg : Config) (inputs : List PortIn) : State :=
  { cfg := cfg, inputs := inputs, st := .idle, accA := 0, accB := 0, idCnt := 0, idxA := 0,
    idxB := 0, idLen := 0, nonstd := false, t := 0, pace := 0, lat := 0, sv := false, sd := 0,
    si := 0, degen := false, shamt := false, ev := Evaluator.rest }

/-- The machine right after reset: the elaborated configuration, the registers of R38, and no port
value given (log entries 2 and 3). -/
def State.reset : State := State.resetWith elaborated []

end Sys2Proof.Machine
end

