-- ==== Sys2Proof/Machine/Operands.lean ====
section
/-! DEFINITION. The operand forms of the instruction set: the sample index, CONST's immediate
(30_encoding.md R73) and the two popped operands (R78); the nibbles of an identifier byte
(20_memory.md R52). -/

namespace Sys2Proof.Machine

/-- `zext_32(imm[23:0])` (R73). -/
def constOperand (imm : BitVec 24) : Word := imm.setWidth 32

/-- `b <- pop(); a <- pop()`: the operands `(a, b)` and the stack below them (R78). -/
def popTwo (stack : List Word) : Option (Word × Word × List Word) :=
  match stack with
  | b :: a :: below => some (a, b, below)
  | [_] => none
  | [] => none

/-- The shift amount `b[4:0]` (40_formula_ops.md R112, R113). -/
def shiftAmount (b : Word) : Nat := b.toNat % 32

/-- The high nibble `x[7:4]` (20_memory.md R52). -/
def highNibble (x : Byte) : Nibble := x.extractLsb' 4 4

/-- The low nibble `x[3:0]` (20_memory.md R52). -/
def lowNibble (x : Byte) : Nibble := x.extractLsb' 0 4

end Sys2Proof.Machine
end

