-- ==== Sys2Proof/Machine/Flags.lean ====
section
/-! DEFINITION. The evaluation flags (40_formula_ops.md R115): which words may set `dz` and `sa`,
and on which operands. No operator clears a flag. -/

namespace Sys2Proof.Machine

/-- A word that may set no flag. -/
def noFlag (_a _b : Word) : Bool := false

/-- DIVU and MODU set `dz` when b = 0 (R110, R111). -/
def zeroDivisor (_a b : Word) : Bool := decide (b = 0)

/-- SHL and SHR set `sa` when b >= 32 (R112, R113). -/
def wideShift (_a b : Word) : Bool := decide (32 ≤ b.toNat)

end Sys2Proof.Machine
end

