-- ==== Sys2Proof/Machine/Ops.lean ====
section
/-! DEFINITION. The shared operations of the instructions on the evaluation context
(40_formula_ops.md R100). The hardware has no traps, saves nothing and takes no vector
(60_exceptions.md R230, R239, R240): there is no exception entry and no return to write here. It
has no data memory (20_memory.md R50): its one memory read is `romRead` (Machine/Elaborate.lean). -/

namespace Sys2Proof.Machine

/-- A word's work is done: the new stack, the flags OR-ed in (R115), `k <- k + 1`
(41_formula_eval.md R142). -/
def wordDone (s : State) (stack : List Word) (dz sa : Bool) : State :=
  { s with ev := { s.ev with
      stack := stack, dz := s.ev.dz || dz, sa := s.ev.sa || sa, k := s.ev.k + 1 } }

/-- `push(v)`. A stack of `STACK_DEPTH` entries takes no more (R141 (6), R236). -/
def pushWord (v : Word) (s : State) : Outcome :=
  if s.ev.stack.length < stackDepth then .next (wordDone s (v :: s.ev.stack) false false)
  else .fault .stackOverflow

/-- `b <- pop(); a <- pop(); push(f(a, b))`, and the flags the operands raise (R100). -/
def binaryWord (f : Word → Word → Word) (dz sa : Word → Word → Bool) (s : State) : Outcome :=
  match popTwo s.ev.stack with
  | some (a, b, below) => .next (wordDone s (f a b :: below) (dz a b) (sa a b))
  | none => .fault .stackUnderflow

/-- `result <- pop(); stop`: the descriptor's value, returned with `dz` and `sa` (R101). -/
def returnResult (s : State) : Outcome :=
  match s.ev.stack with
  | v :: below =>
    .next { s with ev := { s.ev with stack := below, result := some ⟨v, s.ev.dz, s.ev.sa⟩ } }
  | [] => .fault .stackUnderflow

end Sys2Proof.Machine
end

