-- ==== Sys2Proof/Machine/Arith.lean ====
section
/-! DEFINITION. The arithmetic words: ADD, SUB, MUL, DIVU, MODU (40_formula_ops.md R107 to R111).
Each computes exactly on naturals and wraps at the end. -/

namespace Sys2Proof.Machine

/-- `wrap32(a + b)` (R107). -/
def addWord (a b : Word) : Word := wrap32 (a.toNat + b.toNat)

/-- `(a - b + 2^32) mod 2^32` (R108). -/
def subWord (a b : Word) : Word := wrap32 (a.toNat + (2 ^ 32 - b.toNat))

/-- `wrap32(a * b)` (R109). -/
def mulWord (a b : Word) : Word := wrap32 (a.toNat * b.toNat)

/-- `floor(a / b)`, and 0 for b = 0 (R110). -/
def divuWord (a b : Word) : Word := if b = 0 then 0 else wrap32 (a.toNat / b.toNat)

/-- `a mod b`, and 0 for b = 0 (R111). -/
def moduWord (a b : Word) : Word := if b = 0 then 0 else wrap32 (a.toNat % b.toNat)

/-- ADD (R107). -/
def execAdd (s : State) : Outcome := binaryWord addWord noFlag noFlag s

/-- SUB (R108). -/
def execSub (s : State) : Outcome := binaryWord subWord noFlag noFlag s

/-- MUL (R109). -/
def execMul (s : State) : Outcome := binaryWord mulWord noFlag noFlag s

/-- DIVU (R110). -/
def execDivu (s : State) : Outcome := binaryWord divuWord zeroDivisor noFlag s

/-- MODU (R111). -/
def execModu (s : State) : Outcome := binaryWord moduWord zeroDivisor noFlag s

end Sys2Proof.Machine
end

