-- ==== Sys2Proof/Machine/Bitwise.lean ====
section
/-! DEFINITION. The bitwise words: AND, OR, XOR (40_formula_ops.md R104 to R106). -/

namespace Sys2Proof.Machine

/-- `a & b` (R104). -/
def andWord (a b : Word) : Word := a &&& b

/-- `a | b` (R105). -/
def orWord (a b : Word) : Word := a ||| b

/-- `a ^ b` (R106). -/
def xorWord (a b : Word) : Word := a ^^^ b

/-- AND (R104). -/
def execAnd (s : State) : Outcome := binaryWord andWord noFlag noFlag s

/-- OR (R105). -/
def execOr (s : State) : Outcome := binaryWord orWord noFlag noFlag s

/-- XOR (R106). -/
def execXor (s : State) : Outcome := binaryWord xorWord noFlag noFlag s

end Sys2Proof.Machine
end

