-- ==== Sys2Proof/Machine/Leaves.lean ====
section
/-! DEFINITION. The terminator and the leaves: END, T, CONST (40_formula_ops.md R101 to R103). -/

namespace Sys2Proof.Machine

/-- END (R101). -/
def execEnd (s : State) : Outcome := returnResult s

/-- T: `push(t)` (R102). -/
def execT (s : State) : Outcome := pushWord s.t s

/-- CONST: `push(zext_32(imm))` (R103). -/
def execConst (imm : BitVec 24) (s : State) : Outcome := pushWord (constOperand imm) s

end Sys2Proof.Machine
end

