-- ==== Sys2Proof/Machine/Shift.lean ====
section
/-! DEFINITION. The shifts: SHL, SHR, both logical, by b mod 32 (40_formula_ops.md R112, R113). -/

namespace Sys2Proof.Machine

/-- `wrap32(a * 2^(b[4:0]))` (R112). -/
def shlWord (a b : Word) : Word := wrap32 (a.toNat * 2 ^ shiftAmount b)

/-- `floor(a / 2^(b[4:0]))` (R113). -/
def shrWord (a b : Word) : Word := wrap32 (a.toNat / 2 ^ shiftAmount b)

/-- SHL (R112). -/
def execShl (s : State) : Outcome := binaryWord shlWord noFlag wideShift s

/-- SHR (R113). -/
def execShr (s : State) : Outcome := binaryWord shrWord noFlag wideShift s

end Sys2Proof.Machine
end

