-- ==== Sys2Proof/Machine/Dispatch.lean ====
section
/-! DEFINITION. One arm per constructor of Instr. -/

namespace Sys2Proof.Machine

def exec (i : Instr) (s : State) : Host.Outcome State Fault Refusal :=
  match i with
  | .endOp => Sys2Proof.Machine.execEnd s
  | .t => Sys2Proof.Machine.execT s
  | .const imm => Sys2Proof.Machine.execConst imm s
  | .and => Sys2Proof.Machine.execAnd s
  | .or => Sys2Proof.Machine.execOr s
  | .xor => Sys2Proof.Machine.execXor s
  | .add => Sys2Proof.Machine.execAdd s
  | .sub => Sys2Proof.Machine.execSub s
  | .mul => Sys2Proof.Machine.execMul s
  | .divu => Sys2Proof.Machine.execDivu s
  | .modu => Sys2Proof.Machine.execModu s
  | .shl => Sys2Proof.Machine.execShl s
  | .shr => Sys2Proof.Machine.execShr s

end Sys2Proof.Machine
end

