-- ==== Sys2Proof/Machine/Evaluator.lean ====
section
/-! DEFINITION. `Eval(P, t)` as the pure function of 41_formula_eval.md R142, and the combiner of
43_renderer.md R191. The machine evaluates word by word (Machine/Step.lean); this is the function
it must compute. -/

namespace Sys2Proof.Machine

/-- The stack and the flags of an evaluation (40_formula_ops.md R100). -/
structure Ctx where
  stack : List Word
  dz : Bool
  sa : Bool
  deriving DecidableEq, Repr

/-- The empty stack, both flags 0 (R142). -/
def Ctx.empty : Ctx := { stack := [], dz := false, sa := false }

/-- `push(v)`. -/
def ctxPush (v : Word) (c : Ctx) : Option Ctx := some { c with stack := v :: c.stack }

/-- A binary operator on the context: `dz` and `sa` say what its operands raise. -/
def ctxBinary (f : Word → Word → Word) (dz sa : Word → Word → Bool) (c : Ctx) : Option Ctx :=
  match popTwo c.stack with
  | some (a, b, below) =>
    some { stack := f a b :: below, dz := c.dz || dz a b, sa := c.sa || sa a b }
  | none => none

/-- What one word other than END does to the context at sample index `t`. -/
def wordEffect (t : Word) (i : Instr) (c : Ctx) : Option Ctx :=
  match i with
  | .endOp => none
  | .t => ctxPush t c
  | .const imm => ctxPush (constOperand imm) c
  | .and => ctxBinary andWord noFlag noFlag c
  | .or => ctxBinary orWord noFlag noFlag c
  | .xor => ctxBinary xorWord noFlag noFlag c
  | .add => ctxBinary addWord noFlag noFlag c
  | .sub => ctxBinary subWord noFlag noFlag c
  | .mul => ctxBinary mulWord noFlag noFlag c
  | .divu => ctxBinary divuWord zeroDivisor noFlag c
  | .modu => ctxBinary moduWord zeroDivisor noFlag c
  | .shl => ctxBinary shlWord noFlag wideShift c
  | .shr => ctxBinary shrWord noFlag wideShift c

/-- `(pop(), dz, sa)` at END (R101). -/
def ctxReturn (c : Ctx) : Option Result :=
  match c.stack with
  | v :: _ => some ⟨v, c.dz, c.sa⟩
  | [] => none

/-- The loop of R142 over decoded words, from a context. -/
def evalProgram (t : Word) : List Instr → Ctx → Option Result
  | [], _ => none
  | i :: rest, c =>
    if i = .endOp then ctxReturn c
    else
      match wordEffect t i c with
      | some c' => evalProgram t rest c'
      | none => none

/-- `Eval(P, t)` (R142); no value for a `P` that does not decode or runs out of words. -/
def evalDescriptor (p : Descriptor) (t : Word) : Option Result :=
  match decodeWords p with
  | .ok is => evalProgram t is Ctx.empty
  | .error _ => none

/-- The sum of two formulas' triples: `wrap32(va + vb)`, the flags OR-ed (43_renderer.md R191). -/
def combineResults (ra rb : Result) : Result :=
  { v := wrap32 (ra.v.toNat + rb.v.toNat), dz := ra.dz || rb.dz, sa := ra.sa || rb.sa }

/-- `Combine(ia, ib, t)` (R191). `ia` selects from CatalogA and `ib` from CatalogB, never crossed
(41_formula_eval.md R146). -/
def combine (c : Config) (ia ib : Fin 7) (t : Word) : Option Result :=
  match evalDescriptor (descriptorOf c .A ia) t, evalDescriptor (descriptorOf c .B ib) t with
  | some ra, some rb => some (combineResults ra rb)
  | some _, none => none
  | none, some _ => none
  | none, none => none

end Sys2Proof.Machine
end

