-- ==== Sys2Proof/Machine/Selector.lean ====
section
/-! DEFINITION. The selector: the two edges that accept an identifier byte (42_selector.md R172,
R173, with the renderer's start, 43_renderer.md R195) and the selection function (R174). -/

namespace Sys2Proof.Machine

/-- `(acc + n) mod 7` (R172). -/
def addResidue (acc : Fin 7) (n : Nibble) : Fin 7 :=
  ⟨(acc.val + n.toNat) % 7, Nat.mod_lt _ (by decide)⟩

/-- `min(id_cnt + 1, 255)` (R172). -/
def countByte (cnt : BitVec 8) : BitVec 8 := BitVec.ofNat 8 (min (cnt.toNat + 1) idCntMax)

/-- Whether an identifier length is non-standard: neither 4 nor 7 (R173, 10_state.md R27). -/
def nonstandard (n : BitVec 8) : Bool := decide (n ≠ 4 ∧ n ≠ 7)

/-- A non-last byte is accepted (R172). -/
def acceptByte (x : Byte) (s : State) : State :=
  { s with
    accA := addResidue s.accA (highNibble x)
    accB := addResidue s.accB (lowNibble x)
    idCnt := countByte s.idCnt }

/-- The session-start edge: the last byte is accepted (R173) and the renderer starts
(43_renderer.md R195). -/
def startSession (x : Byte) (s : State) : State :=
  { s with
    idxA := addResidue s.accA (highNibble x)
    idxB := addResidue s.accB (lowNibble x)
    idLen := countByte s.idCnt
    nonstd := nonstandard (countByte s.idCnt)
    accA := 0
    accB := 0
    idCnt := 0
    degen := false
    shamt := false
    st := .render
    t := 0
    pace := -((s.cfg.evalLatency : Int) * (s.cfg.sampleRate : Int))
    lat := s.cfg.evalLatency }

/-- `nibbles(id)`: each byte's high nibble, then its low nibble, in byte order (R174). -/
def nibbles : List Byte → List Nibble
  | [] => []
  | x :: rest => highNibble x :: lowNibble x :: nibbles rest

/-- The sum of the nibbles at the even positions 0, 2, 4, … (R174). -/
def evenSum : List Nibble → Nat
  | [] => 0
  | [n] => n.toNat
  | n :: _ :: rest => n.toNat + evenSum rest

/-- The sum of the nibbles at the odd positions 1, 3, 5, … (R174). -/
def oddSum : List Nibble → Nat
  | [] => 0
  | [_] => 0
  | _ :: n :: rest => n.toNat + oddSum rest

/-- `select(id) = (even(id) mod 7, odd(id) mod 7)`; the sums are exact (R174, 90 C3). -/
def select (id : List Byte) : Fin 7 × Fin 7 :=
  (⟨evenSum (nibbles id) % 7, Nat.mod_lt _ (by decide)⟩,
   ⟨oddSum (nibbles id) % 7, Nat.mod_lt _ (by decide)⟩)

end Sys2Proof.Machine
end

