-- ==== Sys2Proof/Machine/Renderer.lean ====
section
/-! DEFINITION. The renderer's edges (43_renderer.md R196 to R199), the reset edge
(70_reset_and_hazards.md R260) and their composition, `Step` of R200. -/

namespace Sys2Proof.Machine

/-- The input ports in this clock cycle; quiet when no value is given (log entry 3). -/
def portsNow (s : State) : PortIn := s.inputs.headD PortIn.quiet

/-- What every edge does before its own rule: `sv <- 0` (R200), the cycle's port values are used
up, and no evaluation is left over. -/
def beginEdge (s : State) : State :=
  { s with inputs := s.inputs.tail, sv := false, ev := Evaluator.rest }

/-- The reset edge: every register at its reset value, the ROM unchanged (R260, 10_state.md
R38). -/
def resetEdge (s : State) : State := State.resetWith s.cfg s.inputs

/-- The emission edge (R196), with the value and the flags of `Combine`. -/
def emitSample (r : Result) (s : State) : State :=
  { s with
    sv := true
    sd := r.v
    si := s.t
    degen := s.degen || r.dz
    shamt := s.shamt || r.sa
    t := wrap32 (s.t.toNat + 1)
    pace := s.pace + (s.cfg.sampleRate : Int) - (s.cfg.clkHz : Int)
    lat := s.cfg.evalLatency }

/-- The waiting edge (R197). -/
def waitEdge (s : State) : State :=
  { s with
    pace := s.pace + (s.cfg.sampleRate : Int)
    lat := if 0 < s.lat then s.lat - 1 else s.lat }

/-- The final period (R198). -/
def finalEdge (s : State) : State :=
  if 0 ≤ s.pace then { s with st := .done }
  else { s with pace := s.pace + (s.cfg.sampleRate : Int) }

/-- The DONE edge (R199). -/
def doneEdge (s : State) : State :=
  { s with st := .idle, t := 0, pace := 0, lat := 0 }

/-- IDLE's part of `Step` (R200): a byte is accepted iff one is offered. -/
def idleEdge (p : PortIn) (s : State) : State :=
  if p.idValid then
    if p.idLast then startSession p.idData s else acceptByte p.idData s
  else s

/-- Whether the edge that ends this cycle is an emission edge (R196). -/
def emissionDue (s : State) : Bool :=
  decide ((portsNow s).rst = false ∧ s.st = .render ∧ s.t.toNat < tSamples s.cfg ∧
    s.lat = 0 ∧ 0 ≤ s.pace)

/-- `Step` of R200 at an edge that is not an emission edge. -/
def quietEdge (s : State) : State :=
  if (portsNow s).rst then resetEdge (beginEdge s)
  else
    match s.st with
    | .idle => idleEdge (portsNow s) (beginEdge s)
    | .render =>
      if s.t.toNat < tSamples s.cfg then waitEdge (beginEdge s) else finalEdge (beginEdge s)
    | .done => doneEdge (beginEdge s)

/-- `Step` of R200 at an emission edge. -/
def emissionEdge (r : Result) (s : State) : State := emitSample r (beginEdge s)

/-- `Step` of R200 whole, one rising edge, with the pure `Combine`. -/
def clockStep (s : State) : Option State :=
  if emissionDue s then
    match combine s.cfg s.idxA s.idxB s.t with
    | some r => some (emissionEdge r s)
    | none => none
  else some (quietEdge s)

/-- `n` rising edges. -/
def clockRun : Nat → State → Option State
  | 0, s => some s
  | n + 1, s =>
    match clockStep s with
    | some s' => clockRun n s'
    | none => none

/-- What a sink takes in the next `n` clock cycles: `(sample_index, sample_data)` of each cycle
with `sample_valid` = 1 (R204, R206). -/
def samplesTaken : Nat → State → List (Word × Word)
  | 0, _ => []
  | n + 1, s =>
    (if s.sv then [(s.si, s.sd)] else []) ++
      (match clockStep s with
       | some s' => samplesTaken n s'
       | none => [])

/-- `ceil(n / d)` for d > 0. -/
def ceilDiv (n d : Nat) : Nat := (n + d - 1) / d

/-- `c_k = L + ceil(k * F / R)`: the render cycle that sample k's emission edge ends (R201); for
k = T, the one that the edge setting DONE ends (R202). -/
def emissionCycle (c : Config) (k : Nat) : Nat := c.evalLatency + ceilDiv (k * c.clkHz) c.sampleRate

end Sys2Proof.Machine
end

