-- ==== Sys2Proof/Machine/Fetch.lean ====
section
/-! DEFINITION. How the evaluator reads the selected descriptors (41_formula_eval.md R142, R146),
the order of the combiner's two evaluations (43_renderer.md R191), and where a word is placed so
that the next step runs it. -/

namespace Sys2Proof.Machine

/-- The elaboration check (00_scope.md R8, 60_exceptions.md R236): the refusal of an illegal
configuration. -/
def elaborationRefusal (c : Config) : Option Refusal :=
  if descriptorsLegal c then if parametersLegal c then none else some .illegalConfig
  else some .illegalDescriptor

/-- The index that selects from a catalog: `idx_a` from A, `idx_b` from B (R146). -/
def indexFor (s : State) (cat : Cat) : Fin 7 :=
  match cat with
  | .A => s.idxA
  | .B => s.idxB

/-- The next word of the descriptor under evaluation. -/
def fetchWord (cat : Cat) (s : State) : Option Word :=
  romRead s.cfg cat (indexFor s cat) s.ev.k

/-- One word: read, decoded, executed. -/
def runWord (cat : Cat) (s : State) : Outcome :=
  match fetchWord cat s with
  | none => .fault .unterminated
  | some w =>
    match decode w with
    | .error e => .refused (.malformedWord e)
    | .ok i => exec i s

/-- An evaluation begins (R142). -/
def beginFormula (p : Phase) (s : State) : State := { s with ev := Evaluator.start p }

/-- A step in a cycle that ends with an emission edge: formula A word by word, formula B word by
word, then the edge with their sum (R191, R196). -/
def emissionStep (s : State) : Outcome :=
  match s.ev.phase with
  | .rest => .next (beginFormula .formulaA s)
  | .formulaA =>
    match s.ev.result with
    | none => runWord .A s
    | some ra => .next (beginFormula (.formulaB ra) s)
  | .formulaB ra =>
    match s.ev.result with
    | none => runWord .B s
    | some rb => .next (emissionEdge (combineResults ra rb) s)

/-- How many steps the cycle of a state with the evaluator at rest takes: one, or the words of the
two selected descriptors and three more. -/
def cycleSteps (s : State) : Nat :=
  if emissionDue s then
    (descriptorOf s.cfg .A s.idxA).length + (descriptorOf s.cfg .B s.idxB).length + 3
  else 1

/-- A descriptor that holds the word `w` after as many `T` words as it pops, and `w`'s index. -/
def descriptorAround (w : Word) : Descriptor × Nat :=
  match decode w with
  | .ok .endOp => ([encode .t, w], 1)
  | .ok i => (List.replicate i.pops (encode .t) ++ [w, encode .endOp], i.pops)
  | .error _ => ([w, encode .endOp], 0)

/-- The machine about to run the word `w` as the next word of formula A: a configuration every
entry of which is the descriptor around `w`, sample 0 due, and the `T` words before `w` already
run (log entry 4). -/
def placeWord (w : Word) (s : State) : State :=
  { s with
    cfg := uniformConfig (descriptorAround w).1
    inputs := []
    st := .render
    t := 0
    pace := 0
    lat := 0
    ev := { phase := .formulaA, k := (descriptorAround w).2,
            stack := List.replicate (descriptorAround w).2 0, dz := false, sa := false,
            result := none } }

end Sys2Proof.Machine
end

