-- ==== Sys2Proof/Machine/Step.lean ====
section
/-! DEFINITION. The step. A cycle that ends with an emission edge takes one step for each word of
the two selected descriptors (log entry 1); every other cycle is one step, its rising edge. -/

namespace Sys2Proof.Machine

/-- One step of the machine. -/
def step (s : State) : Host.Outcome State Fault Refusal :=
  match elaborationRefusal s.cfg with
  | some r => .refused r
  | none => if emissionDue s then emissionStep s else .next (quietEdge s)

/-- The state whose next step runs the table word `w`. -/
def State.withFetchWord (s : State) (nbits w : Nat) : State :=
  placeWord (BitVec.ofNat 32 (w % 2 ^ nbits)) s

end Sys2Proof.Machine
end

