-- ==== Sys2Proof/Machine/Assembler.lean ====
section
/-! DEFINITION. The written forms of descriptors: the pseudo-instructions LI32 and NOT
(30_encoding.md R83, R84), expressions and their postfix words (R82), the infix text (R81) and the
postfix listing (R80). Texts are lists of characters. -/

namespace Sys2Proof.Machine

/-- The binary operators of the infix form (R81). -/
inductive BinOp where
  | and
  | or
  | xor
  | add
  | sub
  | mul
  | div
  | mod
  | shl
  | shr
  deriving DecidableEq, Repr

/-- An expression over `t` (R81). -/
inductive Expr where
  | t
  | lit (v : Word)
  | not (e : Expr)
  | bin (op : BinOp) (a b : Expr)
  deriving DecidableEq, Repr

/-- `OPW(OP)` (R82). -/
def opwOf : BinOp → Instr
  | .and => .and
  | .or => .or
  | .xor => .xor
  | .add => .add
  | .sub => .sub
  | .mul => .mul
  | .div => .divu
  | .mod => .modu
  | .shl => .shl
  | .shr => .shr

/-- `LI32 v` (R83). -/
def li32 (v : Word) : List Instr :=
  if v.toNat < 2 ^ 24 then [.const (v.extractLsb' 0 24)]
  else [.const (v.extractLsb' 8 24), .const 8, .shl, .const ((v.extractLsb' 0 8).setWidth 24), .or]

/-- `NOT` (R84). -/
def notWords : List Instr := [.const 0, .const 1, .sub, .xor]

/-- `[[e]]` (R82). -/
def compile : Expr → List Instr
  | .t => [.t]
  | .lit v => li32 v
  | .not e => compile e ++ notWords
  | .bin op a b => compile a ++ compile b ++ [opwOf op]

/-- The descriptor of an expression: `[[e]]` followed by END (R82). -/
def expressionWords (e : Expr) : Descriptor := (compile e ++ [Instr.endOp]).map encode

/-- The value of an operator on its two operands, the left one first (00_scope.md R12). -/
def opValue (op : BinOp) (a b : Word) : Word :=
  match op with
  | .and => a &&& b
  | .or => a ||| b
  | .xor => a ^^^ b
  | .add => a + b
  | .sub => a - b
  | .mul => a * b
  | .div => if b = 0 then 0 else a / b
  | .mod => if b = 0 then 0 else a % b
  | .shl => a <<< (b.toNat % 32)
  | .shr => a >>> (b.toNat % 32)

/-- The value and the flags of an expression at `t`, subexpression by subexpression
(40_formula_ops.md R114, R115; no short-circuit, 41_formula_eval.md R145). -/
def denote (t : Word) : Expr → Result
  | .t => ⟨t, false, false⟩
  | .lit v => ⟨v, false, false⟩
  | .not e => ⟨~~~(denote t e).v, (denote t e).dz, (denote t e).sa⟩
  | .bin op a b =>
    { v := opValue op (denote t a).v (denote t b).v
      dz := (denote t a).dz || (denote t b).dz ||
        (decide (op = .div ∨ op = .mod) && decide ((denote t b).v = 0))
      sa := (denote t a).sa || (denote t b).sa ||
        (decide (op = .shl ∨ op = .shr) && decide (32 ≤ (denote t b).v.toNat)) }

/-- The value of a hexadecimal digit. -/
def hexDigit (c : Char) : Option Nat :=
  if '0' ≤ c ∧ c ≤ '9' then some (c.toNat - '0'.toNat)
  else if 'a' ≤ c ∧ c ≤ 'f' then some (c.toNat - 'a'.toNat + 10)
  else if 'A' ≤ c ∧ c ≤ 'F' then some (c.toNat - 'A'.toNat + 10)
  else none

/-- The number that digits in base `base` write, read after `acc`. -/
def digitsFrom (base : Nat) : Nat → List Char → Option Nat
  | acc, [] => some acc
  | acc, c :: rest =>
    match hexDigit c with
    | some d => if d < base then digitsFrom base (acc * base + d) rest else none
    | none => none

/-- An unsigned integer literal, decimal or `0x` hexadecimal (R80, R81). -/
def number (cs : List Char) : Option Nat :=
  match cs with
  | [] => none
  | ['0', 'x'] => none
  | '0' :: 'x' :: digits => digitsFrom 16 0 digits
  | digits => digitsFrom 10 0 digits

/-- The tokens of the infix form. -/
inductive Token where
  | t
  | num (v : Word)
  | op (o : BinOp)
  | tilde
  | lparen
  | rparen
  deriving DecidableEq, Repr

/-- A character between tokens. -/
def isBlank (c : Char) : Bool := c == ' ' || c == '\t' || c == '\n' || c == '\r'

/-- A character of a name or a number. -/
def isWordChar (c : Char) : Bool := c.isAlphanum

/-- The token that a run of letters and digits is: `t`, or a literal 0 .. 2^32 - 1 (R81). -/
def wordToken (cs : List Char) : Option Token :=
  if cs = ['t'] then some .t
  else
    match number cs with
    | some n => if n < 2 ^ 32 then some (.num (BitVec.ofNat 32 n)) else none
    | none => none

/-- `cs` and the run of letters and digits read before it, if any, as tokens. -/
def flushWord (run : List Char) (rest : Option (List Token)) : Option (List Token) :=
  if run = [] then rest
  else
    match wordToken run.reverse with
    | some tok => rest.map (tok :: ·)
    | none => none

/-- The tokens of an infix text; `run` holds the letters and digits just read, the last first. -/
def tokensFrom (run : List Char) : List Char → Option (List Token)
  | [] => flushWord run (some [])
  | '<' :: '<' :: cs => flushWord run ((tokensFrom [] cs).map (.op .shl :: ·))
  | '>' :: '>' :: cs => flushWord run ((tokensFrom [] cs).map (.op .shr :: ·))
  | c :: cs =>
    if isWordChar c then tokensFrom (c :: run) cs
    else if isBlank c then flushWord run (tokensFrom [] cs)
    else
      match c with
      | '&' => flushWord run ((tokensFrom [] cs).map (.op .and :: ·))
      | '|' => flushWord run ((tokensFrom [] cs).map (.op .or :: ·))
      | '^' => flushWord run ((tokensFrom [] cs).map (.op .xor :: ·))
      | '+' => flushWord run ((tokensFrom [] cs).map (.op .add :: ·))
      | '-' => flushWord run ((tokensFrom [] cs).map (.op .sub :: ·))
      | '*' => flushWord run ((tokensFrom [] cs).map (.op .mul :: ·))
      | '/' => flushWord run ((tokensFrom [] cs).map (.op .div :: ·))
      | '%' => flushWord run ((tokensFrom [] cs).map (.op .mod :: ·))
      | '~' => flushWord run ((tokensFrom [] cs).map (.tilde :: ·))
      | '(' => flushWord run ((tokensFrom [] cs).map (.lparen :: ·))
      | ')' => flushWord run ((tokensFrom [] cs).map (.rparen :: ·))
      | _ => none

/-- The precedence levels of R81, the loosest 0. -/
def level : BinOp → Nat
  | .or => 0
  | .xor => 1
  | .and => 2
  | .shl => 3
  | .shr => 3
  | .add => 4
  | .sub => 4
  | .mul => 5
  | .div => 5
  | .mod => 5

/-- Precedence climbing (R81). With `left` = none, an expression of level `l` or tighter; with
`left` = some e, the rest of a left-associative row of level `l` that began with `e`. Level 6 is a
primary under any number of `~`. -/
def climb : Nat → Nat → Option Expr → List Token → Option (Expr × List Token)
  | 0, _, _, _ => none
  | fuel + 1, l, none, toks =>
    if l < 6 then
      match climb fuel (l + 1) none toks with
      | some (e, rest) => climb fuel l (some e) rest
      | none => none
    else
      match toks with
      | .t :: rest => some (.t, rest)
      | .num v :: rest => some (.lit v, rest)
      | .tilde :: rest =>
        match climb fuel 6 none rest with
        | some (e, rest') => some (.not e, rest')
        | none => none
      | .lparen :: rest =>
        match climb fuel 0 none rest with
        | some (e, .rparen :: rest') => some (e, rest')
        | _ => none
      | _ => none
  | fuel + 1, l, some e, toks =>
    match toks with
    | .op o :: rest =>
      if level o = l then
        match climb fuel (l + 1) none rest with
        | some (e', rest') => climb fuel l (some (.bin o e e')) rest'
        | none => none
      else some (e, toks)
    | _ => some (e, toks)

/-- The expression that an infix text writes (R81). -/
def parseInfix (text : List Char) : Option Expr :=
  match tokensFrom [] text with
  | none => none
  | some toks =>
    match climb (16 * (toks.length + 1)) 0 none toks with
    | some (e, []) => some e
    | _ => none

/-- The descriptor of an infix text (R81, R82). -/
def assembleInfix (text : List Char) : Option Descriptor := (parseInfix text).map expressionWords

/-- A line of a listing (R80). -/
inductive Line where
  | blank
  | label (cat : Cat) (i : Fin 7)
  | words (ws : List Instr)
  deriving DecidableEq, Repr

/-- The mnemonics without an operand, NOT among them (R80, R84). -/
def plainMnemonic (m : List Char) : Option (List Instr) :=
  if m = ['e', 'n', 'd'] then some [.endOp]
  else if m = ['t'] then some [.t]
  else if m = ['a', 'n', 'd'] then some [.and]
  else if m = ['o', 'r'] then some [.or]
  else if m = ['x', 'o', 'r'] then some [.xor]
  else if m = ['a', 'd', 'd'] then some [.add]
  else if m = ['s', 'u', 'b'] then some [.sub]
  else if m = ['m', 'u', 'l'] then some [.mul]
  else if m = ['d', 'i', 'v', 'u'] then some [.divu]
  else if m = ['m', 'o', 'd', 'u'] then some [.modu]
  else if m = ['s', 'h', 'l'] then some [.shl]
  else if m = ['s', 'h', 'r'] then some [.shr]
  else if m = ['n', 'o', 't'] then some notWords
  else none

/-- `CONST n` with n in 0 .. 2^24 - 1 (R80) and `LI32 v` with v in u32 (R83). -/
def operandMnemonic (m : List Char) (n : Nat) : Option (List Instr) :=
  if m = ['c', 'o', 'n', 's', 't'] then
    if n < 2 ^ 24 then some [.const (BitVec.ofNat 24 n)] else none
  else if m = ['l', 'i', '3', '2'] then
    if n < 2 ^ 32 then some (li32 (BitVec.ofNat 32 n)) else none
  else none

/-- The label `A3:` (R80). -/
def labelOf (m : List Char) : Option (Cat × Fin 7) :=
  match m with
  | [c, d, ':'] =>
    match (if c = 'A' then some Cat.A else if c = 'B' then some Cat.B else none), hexDigit d with
    | some cat, some n => if h : n < 7 then some (cat, ⟨n, h⟩) else none
    | _, _ => none
  | _ => none

/-- A character in lower case: mnemonics are case-insensitive (R80). -/
def lower (cs : List Char) : List Char := cs.map Char.toLower

/-- The fields of a line: runs of characters that are no blanks, `run` the one being read, its
last character first. -/
def fieldsFrom (run : List Char) : List Char → List (List Char)
  | [] => if run = [] then [] else [run.reverse]
  | c :: cs =>
    if isBlank c then
      if run = [] then fieldsFrom [] cs else run.reverse :: fieldsFrom [] cs
    else fieldsFrom (c :: run) cs

/-- One line: `;` starts a comment (R80). -/
def parseLine (line : List Char) : Option Line :=
  match fieldsFrom [] (line.takeWhile (· ≠ ';')) with
  | [] => some .blank
  | [m] =>
    match labelOf m with
    | some (cat, i) => some (.label cat i)
    | none => (plainMnemonic (lower m)).map .words
  | [m, n] =>
    match number n with
    | some v => (operandMnemonic (lower m) v).map .words
    | none => none
  | _ => none

/-- The lines of a text, `run` the one being read, its last character first. -/
def linesFrom (run : List Char) : List Char → List (List Char)
  | [] => [run.reverse]
  | '\n' :: cs => run.reverse :: linesFrom [] cs
  | c :: cs => linesFrom (c :: run) cs

/-- END may be omitted in text: the assembler appends it (R80). -/
def withEnd (ws : List Instr) : List Instr :=
  if ws.getLast? = some Instr.endOp then ws else ws ++ [Instr.endOp]

/-- A catalog entry of a listing. -/
structure Entry where
  cat : Cat
  idx : Fin 7
  words : List Instr
  deriving DecidableEq, Repr

/-- The entries that the lines write; `cur` is the entry being read. Words before the first label
belong to no entry and are refused. -/
def entriesFrom (cur : Option Entry) : List (List Char) → Option (List Entry)
  | [] =>
    match cur with
    | none => some []
    | some e => some [{ e with words := withEnd e.words }]
  | l :: ls =>
    match parseLine l with
    | none => none
    | some .blank => entriesFrom cur ls
    | some (.label cat i) =>
      match cur with
      | none => entriesFrom (some ⟨cat, i, []⟩) ls
      | some e =>
        (entriesFrom (some ⟨cat, i, []⟩) ls).map ({ e with words := withEnd e.words } :: ·)
    | some (.words ws) =>
      match cur with
      | none => none
      | some e => entriesFrom (some { e with words := e.words ++ ws }) ls

/-- The catalog entries of a listing (R80). -/
def parseListing (text : List Char) : Option (List Entry) := entriesFrom none (linesFrom [] text)

/-- The words of one descriptor written without a label (R80). -/
def wordsFrom : List (List Char) → Option (List Instr)
  | [] => some []
  | l :: ls =>
    match parseLine l with
    | none => none
    | some .blank => wordsFrom ls
    | some (.label _ _) => none
    | some (.words ws) => (wordsFrom ls).map (ws ++ ·)

/-- The descriptor that a listing without labels writes (R80). -/
def assemble (text : List Char) : Option Descriptor :=
  (wordsFrom (linesFrom [] text)).map fun ws => (withEnd ws).map encode

end Sys2Proof.Machine
end

