-- ==== Sys2Proof/Machine/Ports.lean ====
section
/-! DEFINITION. The outputs (10_state.md R34, R37): functions of the registers, and of `rst` for
`id_ready` only (43_renderer.md R205). -/

namespace Sys2Proof.Machine

/-- The code of `st` (R22). -/
def sessionCode (st : Session) : BitVec 2 :=
  match st with
  | .idle => 0b00
  | .render => 0b01
  | .done => 0b10

/-- One bit. -/
def bit (b : Bool) : BitVec 1 := BitVec.ofBool b

/-- A value 0..6 in 3 bits. -/
def indexBits (i : Fin 7) : BitVec 3 := BitVec.ofNat 3 i.val

/-- `status[31:0]` (R34), its high fields first. -/
def statusWord (s : State) : Word :=
  0#8 ++ s.idLen ++ 0#4 ++ bit (decide (s.idCnt ≠ 0)) ++ bit s.nonstd ++ bit s.shamt ++
    bit s.degen ++ indexBits s.idxB ++ indexBits s.idxA ++ sessionCode s.st

/-- The output ports (R37). -/
structure PortOut where
  idReady : Bool
  sampleValid : Bool
  sampleData : Word
  sampleIndex : Word
  busy : Bool
  done : Bool
  status : Word
  deriving DecidableEq, Repr

/-- The output ports in this clock cycle (R37, 42_selector.md R171). -/
def portsOut (s : State) : PortOut :=
  { idReady := decide (s.st = .idle) && !(portsNow s).rst
    sampleValid := s.sv
    sampleData := s.sd
    sampleIndex := s.si
    busy := decide (s.st ≠ .idle)
    done := decide (s.st = .done)
    status := statusWord s }

/-- Whether this cycle's edge accepts an identifier byte (42_selector.md R170). -/
def byteAccepted (s : State) : Bool := (portsNow s).idValid && (portsOut s).idReady

/-- What a sink of `OUTPUT_BITS` bits keeps of a sample: bits `OUTPUT_BITS` - 1 : 0 (20_memory.md
R53, 90 C1). The sink's step, not the core's. -/
def sinkAmplitude (c : Config) (sample : Word) : BitVec c.outputBits :=
  sample.setWidth c.outputBits

end Sys2Proof.Machine
end

