-- ==== Sys2Proof/Safety.lean ====
section
/-! DEFINITION. What holds in every state of a run of a legal configuration: the invariants of
10_state.md R40, strengthened until a step keeps them, and the evaluator's progress. -/

namespace Sys2Proof.Machine

/-- What the words `is` (none of them END) do to a context, in order (41_formula_eval.md R142). -/
def runWords (t : Word) : List Instr → Ctx → Option Ctx
  | [], c => some c
  | i :: rest, c =>
    match wordEffect t i c with
    | some c' => runWords t rest c'
    | none => none

/-- The evaluator stands inside the evaluation of `p` at `t`, before END: it has run exactly the
first `k` words. Or END has returned `Eval(p, t)`. -/
def evalOnCourse (p : Descriptor) (t : Word) (ev : Evaluator) : Bool :=
  match ev.result with
  | some r => decide (evalDescriptor p t = some r)
  | none =>
    match decodeWords p with
    | .error _ => false
    | .ok is =>
      decide (ev.k < is.length) &&
        decide (runWords t (is.take ev.k) Ctx.empty = some ⟨ev.stack, ev.dz, ev.sa⟩)

/-- The evaluator is at rest, or in the middle of the combiner's evaluations of a sample that is
due (43_renderer.md R191, R196). -/
def evaluatorOnCourse (s : State) : Bool :=
  match s.ev.phase with
  | .rest => decide (s.ev = Evaluator.rest)
  | .formulaA =>
    emissionDue s && evalOnCourse (descriptorOf s.cfg .A s.idxA) s.t s.ev
  | .formulaB ra =>
    emissionDue s && decide (evalDescriptor (descriptorOf s.cfg .A s.idxA) s.t = some ra) &&
      evalOnCourse (descriptorOf s.cfg .B s.idxB) s.t s.ev

/-- R40 (c): in IDLE, `t`, `pace` and `lat` are 0. No sample is shown outside RENDER. -/
def idleOk (s : State) : Bool := decide (s.t = 0 ∧ s.pace = 0 ∧ s.lat = 0 ∧ s.sv = false)

/-- No identifier is partly received outside IDLE (95 2.6). -/
def noPartialIdentifier (s : State) : Bool := decide (s.accA = 0 ∧ s.accB = 0 ∧ s.idCnt = 0)

/-- R40 (d) and (e) in RENDER. The bound on `pace + lat * R` is what R203's proof rests on; it
gives (e). A shown sample is the one before `t` (20_memory.md R62). -/
def renderOk (s : State) : Bool :=
  decide (s.t.toNat ≤ tSamples s.cfg ∧ s.lat ≤ s.cfg.evalLatency ∧
    -(s.cfg.clkHz : Int) ≤ s.pace ∧ s.pace ≤ (s.cfg.sampleRate : Int) - 1 ∧
    (s.t.toNat < tSamples s.cfg →
      s.pace + (s.lat : Int) * (s.cfg.sampleRate : Int) ≤ (s.cfg.sampleRate : Int) - 1) ∧
    (s.sv = true → s.si.toNat + 1 = s.t.toNat))

/-- In DONE all T samples are emitted, and none is shown. -/
def doneOk (s : State) : Bool := decide (s.t.toNat = tSamples s.cfg ∧ s.sv = false)

/-- The session part of the invariant. -/
def sessionOk (s : State) : Bool :=
  match s.st with
  | .idle => idleOk s
  | .render => renderOk s && noPartialIdentifier s
  | .done => doneOk s && noPartialIdentifier s

/-- The invariant of the machine. -/
def invariant (s : State) : Bool := configLegal s.cfg && sessionOk s && evaluatorOnCourse s

/-- The state right after a session-start edge, as far as the pacing is concerned
(43_renderer.md R195): render cycle 0. -/
def sessionStarted (s : State) : Bool :=
  decide (s.st = .render ∧ s.t = 0 ∧
    s.pace = -((s.cfg.evalLatency : Int) * (s.cfg.sampleRate : Int)) ∧
    s.lat = s.cfg.evalLatency ∧ s.sv = false ∧ s.ev = Evaluator.rest)

/-- None of the next `n` edges is a reset edge. -/
def noResetFor (n : Nat) (s : State) : Bool := (s.inputs.take n).all fun p => !p.rst

/-- The port values of a source that delivers the identifier `id`: its bytes in order, each in a
cycle of its own with any number of cycles without an offer before it, `id_last` on exactly the
last one, no reset, and nothing after the last byte (42_selector.md R170). -/
def deliversIdentifier : List Byte → List PortIn → Bool
  | [], [] => true
  | [], _ :: _ => false
  | _ :: _, [] => false
  | x :: id, p :: ps =>
    if p.rst then false
    else if p.idValid then
      decide (p.idData = x) && (p.idLast == id.isEmpty) && deliversIdentifier id ps
    else deliversIdentifier (x :: id) ps

/-- `n` steps, stopping at the first fault or refusal. -/
def stepRun : Nat → State → Outcome
  | 0, s => .next s
  | n + 1, s =>
    match step s with
    | .next s' => stepRun n s'
    | .fault r => .fault r
    | .refused r => .refused r

/-- A state between two clock cycles: the evaluator is at rest. -/
def cycleBoundary (s : State) : Bool := decide (s.ev = Evaluator.rest)

end Sys2Proof.Machine
end

