-- ==== Sys2Proof/Certificates/Slice0/Obligations.lean ====
section
/-! DEFINITION. The statements about the model, one definition each. Every docstring names the
rules of spec/ it formalises. -/

open Sys2Proof Sys2Proof.Machine

/-! ### Encoding and well-formedness -/

/-- Decode and encode agree: a word decodes to an instruction iff it is that instruction's
encoding, with every immediate (30_encoding.md R71 to R74). -/
def Obligations.DecodeAgreesWithEncode : Prop :=
  ∀ (w : Word) (i : Instr), decode w = .ok i ↔ w = encode i

/-- The words of the descriptor of R85 decode to what R85 says they are, in order, and its
descriptor is well-formed. -/
def Obligations.SpecExampleWordsDecode : Prop :=
  decodeWords [0x01000000, 0x01000000, 0x02000006, 0x31000000, 0x10000000, 0x01000000, 0x02000002,
      0x31000000, 0x02000100, 0x24000000, 0x11000000, 0x00000000] =
    .ok [.t, .t, .const 6, .shr, .and, .t, .const 2, .shr, .const 256, .modu, .or, .endOp] ∧
  descriptorWf [0x01000000, 0x01000000, 0x02000006, 0x31000000, 0x10000000, 0x01000000,
      0x02000002, 0x31000000, 0x02000100, 0x24000000, 0x11000000, 0x00000000] = true ∧
  decode 0x12000000 = .ok .xor ∧ decode 0x20000000 = .ok .add ∧ decode 0x21000000 = .ok .sub ∧
  decode 0x22000000 = .ok .mul ∧ decode 0x23000000 = .ok .divu ∧ decode 0x30000000 = .ok .shl ∧
  decode 0x02FFFFFF = .ok (.const 0xFFFFFF)

/-- R75: an opcode outside the list is reserved; a descriptor that holds one fails WF, its
configuration is illegal, and the step refuses. The refusal's name is E1 of 60_exceptions.md R231,
which the model also gives where a numeric constraint of R8 fails as well (the model's choice, log
entry 11). -/
def Obligations.ReservedOpcodesAreRefused : Prop :=
  ∀ (c : Config) (cat : Cat) (i : Fin 7) (w : Word), w ∈ descriptorOf c cat i →
    ((0x03 ≤ (w.toNat / 2 ^ 24) ∧ (w.toNat / 2 ^ 24) ≤ 0x0F) ∨
      (0x13 ≤ (w.toNat / 2 ^ 24) ∧ (w.toNat / 2 ^ 24) ≤ 0x1F) ∨
      (0x25 ≤ (w.toNat / 2 ^ 24) ∧ (w.toNat / 2 ^ 24) ≤ 0x2F) ∨
      (0x32 ≤ (w.toNat / 2 ^ 24) ∧ (w.toNat / 2 ^ 24) ≤ 0xFF)) →
    decode w = .error .reservedOpcode ∧
      descriptorWf (descriptorOf c cat i) = false ∧ configLegal c = false ∧
      ∀ s : State, s.cfg = c → step s = .refused .illegalDescriptor

/-- R74: a word other than CONST with a non-zero immediate makes its descriptor fail WF. -/
def Obligations.NonzeroImmediateFailsWf : Prop :=
  ∀ (p : Descriptor) (w : Word), w ∈ p → w.toNat / 2 ^ 24 ≠ 0x02 → w.toNat % 2 ^ 24 ≠ 0 →
    (∀ i, decode w ≠ .ok i) ∧ descriptorWf p = false

/-- R141: the one-pass check holds iff the seven conditions hold, `d` being the depths; a
configuration with a descriptor that fails it is illegal and refused. The refusal's name is E1 of
60_exceptions.md R231, which the model also gives where a numeric constraint of R8 fails as well
(the model's choice, log entry 11). -/
def Obligations.WfIsTheSevenConditions : Prop :=
  (∀ (c : Config) (cat : Cat) (i : Fin 7), descriptorWf (descriptorOf c cat i) = false →
    configLegal c = false ∧ ∀ s : State, s.cfg = c → step s = .refused .illegalDescriptor) ∧
  ∀ p : Descriptor, descriptorWf p = true ↔
    (1 ≤ p.length ∧ p.length ≤ 64) ∧
    (∀ k w, p[k]? = some w → (w.toNat / 2 ^ 24 = 0x00 ↔ k + 1 = p.length)) ∧
    (∀ w ∈ p, w.toNat / 2 ^ 24 ∈
      [0x00, 0x01, 0x02, 0x10, 0x11, 0x12, 0x20, 0x21, 0x22, 0x23, 0x24, 0x30, 0x31]) ∧
    (∀ w ∈ p, w.toNat / 2 ^ 24 ≠ 0x02 → w.toNat % 2 ^ 24 = 0) ∧
    ∃ d : Nat → Nat, d 0 = 0 ∧
      (∀ k w, p[k]? = some w → w.toNat / 2 ^ 24 ∈ [0x01, 0x02] → d (k + 1) = d k + 1) ∧
      (∀ k w, p[k]? = some w →
        w.toNat / 2 ^ 24 ∈ [0x10, 0x11, 0x12, 0x20, 0x21, 0x22, 0x23, 0x24, 0x30, 0x31] →
        2 ≤ d k ∧ d (k + 1) = d k - 1) ∧
      (∀ k, k < p.length → d k ≤ 16) ∧
      d (p.length - 1) = 1

/-- R77, R51: scanning for the first END finds a well-formed descriptor, whatever words follow it
in ROM. -/
def Obligations.ScanFindsTheDescriptor : Prop :=
  ∀ (p : Descriptor) (dontCare : List Word), descriptorWf p = true →
    scanDescriptor (p ++ dontCare) = some p

/-! ### The instructions: result, flags, completion and frame in one equation -/

/-- R101: END pops the result and returns it with the flags; nothing else changes. WF leaves it
exactly one entry, and no descriptor without END or with another depth at END is well-formed. -/
def Obligations.EndReturnsTheResult : Prop :=
  encode .endOp = 0x00000000 ∧
  (∀ (s : State) (v : Word) (below : List Word), s.ev.stack = v :: below →
    exec .endOp s =
      .next { s with ev := { s.ev with
        stack := below, result := some ⟨v, s.ev.dz, s.ev.sa⟩ } }) ∧
  (∀ d : Nat, checkFrom d [.endOp] = .ok () ↔ d = 1) ∧
  (∀ p : Descriptor, descriptorWf p = true → encode .endOp ∈ p) ∧
  (∀ t : Word, evalDescriptor [encode .t, encode .endOp] t = some ⟨t, false, false⟩)

/-- R102: T pushes the sample index. Where the machine evaluates, that index is one of
0 .. T - 1. -/
def Obligations.TPushesTheSampleIndex : Prop :=
  encode .t = 0x01000000 ∧
  (∀ s : State, s.ev.stack.length < 16 →
    exec .t s = .next { s with ev := { s.ev with
      stack := s.t :: s.ev.stack, k := s.ev.k + 1 } }) ∧
  (∀ s : State, invariant s = true → s.ev.phase ≠ .rest →
    s.t.toNat ≤ tSamples s.cfg - 1 ∧ tSamples s.cfg - 1 < 2 ^ 32 - 1) ∧
  (∀ t : Word, evalDescriptor [encode .t, encode .endOp] t = some ⟨t, false, false⟩)

/-- R103, R73: CONST pushes its immediate, zero-extended. -/
def Obligations.ConstPushesItsImmediate : Prop :=
  ∀ imm : BitVec 24,
    (encode (.const imm)).toNat = 0x02 * 2 ^ 24 + imm.toNat ∧
    ∀ s : State, s.ev.stack.length < 16 →
      exec (.const imm) s = .next { s with ev := { s.ev with
        stack := BitVec.ofNat 32 imm.toNat :: s.ev.stack, k := s.ev.k + 1 } }

/-- R104, R105, R106: AND, OR and XOR combine the bits of a and b and set no flag. -/
def Obligations.BitwiseWordsCombineBits : Prop :=
  encode .and = 0x10000000 ∧ encode .or = 0x11000000 ∧ encode .xor = 0x12000000 ∧
  ∀ (s : State) (a b : Word) (below : List Word), s.ev.stack = b :: a :: below →
    exec .and s = .next { s with ev := { s.ev with
      stack := (a &&& b) :: below, k := s.ev.k + 1 } } ∧
    exec .or s = .next { s with ev := { s.ev with
      stack := (a ||| b) :: below, k := s.ev.k + 1 } } ∧
    exec .xor s = .next { s with ev := { s.ev with
      stack := (a ^^^ b) :: below, k := s.ev.k + 1 } }

/-- R107, R108, R109: ADD, SUB and MUL wrap mod 2^32 and set no flag. -/
def Obligations.AddSubMulWrap : Prop :=
  encode .add = 0x20000000 ∧ encode .sub = 0x21000000 ∧ encode .mul = 0x22000000 ∧
  ∀ (s : State) (a b : Word) (below : List Word), s.ev.stack = b :: a :: below →
    exec .add s = .next { s with ev := { s.ev with
      stack := BitVec.ofNat 32 ((a.toNat + b.toNat) % 2 ^ 32) :: below, k := s.ev.k + 1 } } ∧
    exec .sub s = .next { s with ev := { s.ev with
      stack := BitVec.ofInt 32 (((a.toNat : Int) - (b.toNat : Int)) % 2 ^ 32) :: below,
      k := s.ev.k + 1 } } ∧
    exec .mul s = .next { s with ev := { s.ev with
      stack := BitVec.ofNat 32 ((a.toNat * b.toNat) % 2 ^ 32) :: below, k := s.ev.k + 1 } }

/-- R110: DIVU pushes floor(a / b), or 0 with dz set when b = 0. -/
def Obligations.DivuDividesOrFlags : Prop :=
  encode .divu = 0x23000000 ∧
  ∀ (s : State) (a b : Word) (below : List Word), s.ev.stack = b :: a :: below →
    (b = 0 → exec .divu s = .next { s with ev := { s.ev with
      stack := 0 :: below, dz := true, k := s.ev.k + 1 } }) ∧
    (b ≠ 0 → exec .divu s = .next { s with ev := { s.ev with
      stack := BitVec.ofNat 32 (a.toNat / b.toNat) :: below, k := s.ev.k + 1 } })

/-- R111: MODU pushes a mod b, or 0 with dz set when b = 0. -/
def Obligations.ModuTakesRemainderOrFlags : Prop :=
  encode .modu = 0x24000000 ∧
  ∀ (s : State) (a b : Word) (below : List Word), s.ev.stack = b :: a :: below →
    (b = 0 → exec .modu s = .next { s with ev := { s.ev with
      stack := 0 :: below, dz := true, k := s.ev.k + 1 } }) ∧
    (b ≠ 0 → exec .modu s = .next { s with ev := { s.ev with
      stack := BitVec.ofNat 32 (a.toNat % b.toNat) :: below, k := s.ev.k + 1 } })

/-- R112: SHL shifts left by b mod 32 and sets sa when b >= 32. -/
def Obligations.ShlShiftsByAmountMod32 : Prop :=
  encode .shl = 0x30000000 ∧
  ∀ (s : State) (a b : Word) (below : List Word), s.ev.stack = b :: a :: below →
    exec .shl s = .next { s with ev := { s.ev with
      stack := BitVec.ofNat 32 (a.toNat * 2 ^ (b.toNat % 32)) :: below,
      sa := s.ev.sa || decide (32 ≤ b.toNat), k := s.ev.k + 1 } }

/-- R113: SHR shifts right, filling with zeros, by b mod 32 and sets sa when b >= 32. -/
def Obligations.ShrShiftsByAmountMod32 : Prop :=
  encode .shr = 0x31000000 ∧
  ∀ (s : State) (a b : Word) (below : List Word), s.ev.stack = b :: a :: below →
    exec .shr s = .next { s with ev := { s.ev with
      stack := BitVec.ofNat 32 (a.toNat / 2 ^ (b.toNat % 32)) :: below,
      sa := s.ev.sa || decide (32 ≤ b.toNat), k := s.ev.k + 1 } }

/-- The model's choice, log entry 5: a word on a stack outside the depths of R141 (5), (6) has no
run-time behaviour (60_exceptions.md R236), and the model stops by name. -/
def Obligations.StackLimitsStopByName : Prop :=
  (∀ s : State, s.ev.stack = [] → exec .endOp s = .fault .stackUnderflow) ∧
  (∀ (s : State) (i : Instr), i.pops = 2 → s.ev.stack.length < 2 →
    exec i s = .fault .stackUnderflow) ∧
  (∀ (s : State) (i : Instr), i.pops = 0 → 16 ≤ s.ev.stack.length →
    exec i s = .fault .stackOverflow)

/-- R114: where b is not 0, a = b * (a / b) + (a mod b) and a mod b < b, of the values DIVU and
MODU leave on the stack. -/
def Obligations.QuotientAndRemainderRecompose : Prop :=
  ∀ (s : State) (a b : Word) (below : List Word), s.ev.stack = b :: a :: below → b ≠ 0 →
    ∃ (q r : Word) (sq sr : State), exec .divu s = .next sq ∧ exec .modu s = .next sr ∧
      sq.ev.stack = q :: below ∧ sr.ev.stack = r :: below ∧
      a.toNat = b.toNat * q.toNat + r.toNat ∧ r.toNat < b.toNat

/-- R115: which words may set which flag; no word clears one; the flags of a sample's two formulas
are OR-ed. -/
def Obligations.FlagsWrittenByOpcode : Prop :=
  (∀ (i : Instr) (s s' : State), exec i s = .next s' →
    (s.ev.dz = true → s'.ev.dz = true) ∧ (s.ev.sa = true → s'.ev.sa = true) ∧
    (s'.ev.dz ≠ s.ev.dz → i = .divu ∨ i = .modu) ∧
    (s'.ev.sa ≠ s.ev.sa → i = .shl ∨ i = .shr)) ∧
  (∀ ra rb : Result, (combineResults ra rb).dz = (ra.dz || rb.dz) ∧
    (combineResults ra rb).sa = (ra.sa || rb.sa))

/-- R100, the frame of every instruction: a word writes the stack, `dz`, `sa`, the word index and
END's result, and nothing else, the ROM among it; and it reads nothing but them and `t`. -/
def Obligations.WordsActOnTheContextAlone : Prop :=
  (∀ (i : Instr) (s s' : State), exec i s = .next s' →
    s' = { s with ev := s'.ev } ∧ s'.ev.phase = s.ev.phase ∧
    ∀ (cat : Cat) (j : Fin 7) (k : Nat), romRead s'.cfg cat j k = romRead s.cfg cat j k) ∧
  (∀ (i : Instr) (s₁ s₂ s₁' : State), s₁.ev = s₂.ev → s₁.t = s₂.t → exec i s₁ = .next s₁' →
    exec i s₂ = .next { s₂ with ev := s₁'.ev })

/-! ### Evaluation -/

/-- R144, R142, one step a word being the model's choice (log entry 1): `Eval` of a well-formed descriptor returns a value at every index; and in the
machine formula A's evaluation ends after exactly as many steps as its descriptor has words, with
the value and the flags of `Eval`, and changes nothing else; formula B's likewise. -/
def Obligations.EvaluationTakesOneStepAWord : Prop :=
  (∀ (p : Descriptor) (t : Word), descriptorWf p = true → ∃ r, evalDescriptor p t = some r) ∧
  ∀ s : State, configLegal s.cfg = true → emissionDue s = true →
    (s.ev = Evaluator.start .formulaA →
      ∃ (r : Result) (s' : State), evalDescriptor (descriptorOf s.cfg .A s.idxA) s.t = some r ∧
        stepRun (descriptorOf s.cfg .A s.idxA).length s = .next s' ∧
        s' = { s with ev := s'.ev } ∧ s'.ev.phase = .formulaA ∧ s'.ev.result = some r) ∧
    (∀ ra : Result, s.ev = Evaluator.start (.formulaB ra) →
      ∃ (r : Result) (s' : State), evalDescriptor (descriptorOf s.cfg .B s.idxB) s.t = some r ∧
        stepRun (descriptorOf s.cfg .B s.idxB).length s = .next s' ∧
        s' = { s with ev := s'.ev } ∧ s'.ev.phase = .formulaB ra ∧ s'.ev.result = some r)

/-- R191, R146: `Combine` adds the two formulas' values mod 2^32 and ORs their flags; indexA
selects from CatalogA and indexB from CatalogB; the emission edge shows all 32 bits of the sum. -/
def Obligations.CombinerAddsAndOrs : Prop :=
  (∀ (r : Result) (s : State), (portsOut (emissionEdge r s)).sampleData = r.v) ∧
  ∀ (c : Config) (ia ib : Fin 7) (t va vb : Word) (dza saa dzb sab : Bool),
    evalDescriptor (descriptorOf c .A ia) t = some ⟨va, dza, saa⟩ →
    evalDescriptor (descriptorOf c .B ib) t = some ⟨vb, dzb, sab⟩ →
    combine c ia ib t =
      some ⟨BitVec.ofNat 32 ((va.toNat + vb.toNat) % 2 ^ 32), dza || dzb, saa || sab⟩

/-! ### The step -/

/-- A step runs the decoded word (one step a word is the model's choice, log entry 1): while a sample's formulas are evaluated, the step is exec of the
instruction that the next ROM word decodes to. -/
def Obligations.StepRunsTheDecodedWord : Prop :=
  ∀ (s : State) (w : Word) (i : Instr), configLegal s.cfg = true → emissionDue s = true →
    s.ev.result = none → decode w = .ok i →
    (s.ev.phase = .formulaA → romRead s.cfg .A s.idxA s.ev.k = some w → step s = exec i s) ∧
    (∀ ra, s.ev.phase = .formulaB ra → romRead s.cfg .B s.idxB s.ev.k = some w →
      step s = exec i s)

/-- What the step adds around the words (the model's choice, log entry 1): the evaluation of
formula A begins, formula B's follows it with an empty stack and clear flags (R142, R191), and
after both comes the emission edge with the value and the flags of `Combine`. -/
def Obligations.StepSequencesTheFormulas : Prop :=
  (∀ s : State, configLegal s.cfg = true → emissionDue s = true →
    (s.ev.phase = .rest → step s = .next { s with ev :=
      { phase := .formulaA, k := 0, stack := [], dz := false, sa := false, result := none } }) ∧
    (∀ ra, s.ev.phase = .formulaA → s.ev.result = some ra → step s = .next { s with ev :=
      { phase := .formulaB ra, k := 0, stack := [], dz := false, sa := false, result := none } })) ∧
  ∀ (s : State) (ra rb : Result), invariant s = true → s.ev.phase = .formulaB ra →
    s.ev.result = some rb →
    emissionDue s = true ∧ ∃ s', step s = .next s' ∧ clockStep s = some s' ∧
      combine s.cfg s.idxA s.idxB s.t = some ⟨s'.sd, ra.dz || rb.dz, ra.sa || rb.sa⟩

/-- A placed word is run by the very next step, whatever instruction it is and whatever state it is
placed in, and that step ends in a next state (log entry 4). -/
def Obligations.PlacedWordIsRunNext : Prop :=
  ∀ (i : Instr) (s : State),
    step (s.withFetchWord 32 (encode i).toNat) = exec i (s.withFetchWord 32 (encode i).toNat) ∧
    ∃ s', step (s.withFetchWord 32 (encode i).toNat) = .next s'

/-- R8: a configuration is legal iff the listed conditions hold, and the step refuses an illegal
one. Under which name is `Obligations.RefusalsNameTheirCondition`. -/
def Obligations.IllegalConfigurationIsRefused : Prop :=
  (∀ c : Config, configLegal c = true ↔
    1 ≤ c.sampleRate ∧
    (1 ≤ c.sampleRate * c.durationNum / c.durationDen ∧
      c.sampleRate * c.durationNum / c.durationDen ≤ 2 ^ 32 - 1) ∧
    0 ≤ c.evalLatency ∧
    (c.evalLatency + 1) * c.sampleRate ≤ c.clkHz ∧
    ∀ (cat : Cat) (i : Fin 7), descriptorWf (descriptorOf c cat i) = true) ∧
  (∀ s : State, configLegal s.cfg = false →
    step s = .refused .illegalDescriptor ∨ step s = .refused .illegalConfig)

/-- R60: no step changes a word of the ROM. -/
def Obligations.RomIsConstant : Prop :=
  ∀ s s' : State, step s = .next s' →
    s'.cfg = s.cfg ∧
    ∀ (cat : Cat) (i : Fin 7) (k : Nat), romRead s'.cfg cat i k = romRead s.cfg cat i k

/-! ### The rising edges -/

/-- R260, R38: at an edge with `rst` = 1 every register takes its reset value, whatever the state;
no byte is accepted, no sample emitted, and the ROM is unchanged. -/
def Obligations.ResetEdgeResetsEveryRegister : Prop :=
  ∀ s : State, configLegal s.cfg = true → (portsNow s).rst = true →
    byteAccepted s = false ∧
    step s = .next
      { cfg := s.cfg, inputs := s.inputs.tail, st := .idle, accA := 0, accB := 0, idCnt := 0,
        idxA := 0, idxB := 0, idLen := 0, nonstd := false, t := 0, pace := 0, lat := 0,
        sv := false, sd := 0x00000000, si := 0x00000000, degen := false, shamt := false,
        ev := { phase := .rest, k := 0, stack := [], dz := false, sa := false, result := none } }

/-- R38: the state after reset, its status word 0 (R34); its configuration is legal, which one
being left open (the model's choice, log entry 2). -/
def Obligations.ResetStateIsAsStated : Prop :=
  configLegal State.reset.cfg = true ∧
  State.reset.st = .idle ∧ State.reset.accA = 0 ∧ State.reset.accB = 0 ∧ State.reset.idCnt = 0 ∧
  State.reset.idxA = 0 ∧ State.reset.idxB = 0 ∧ State.reset.idLen = 0 ∧
  State.reset.nonstd = false ∧ State.reset.t = 0 ∧ State.reset.pace = 0 ∧ State.reset.lat = 0 ∧
  State.reset.sv = false ∧ State.reset.sd = 0x00000000 ∧ State.reset.si = 0x00000000 ∧
  State.reset.degen = false ∧ State.reset.shamt = false ∧ statusWord State.reset = 0x00000000

/-- R172: a non-last byte. -/
def Obligations.NonLastByteAccumulates : Prop :=
  ∀ s : State, configLegal s.cfg = true → (portsNow s).rst = false → s.st = .idle →
    (portsNow s).idValid = true → (portsNow s).idLast = false →
    step s = .next { s with
      inputs := s.inputs.tail, sv := false, ev := Evaluator.rest
      accA := Fin.ofNat 7 (s.accA.val + (portsNow s).idData.toNat / 16)
      accB := Fin.ofNat 7 (s.accB.val + (portsNow s).idData.toNat % 16)
      idCnt := BitVec.ofNat 8 (min (s.idCnt.toNat + 1) 255) }

/-- R173 with R195: the session-start edge. -/
def Obligations.LastByteStartsTheSession : Prop :=
  ∀ (s : State) (n : Nat), configLegal s.cfg = true → (portsNow s).rst = false → s.st = .idle →
    (portsNow s).idValid = true → (portsNow s).idLast = true →
    n = min (s.idCnt.toNat + 1) 255 →
    step s = .next { s with
      inputs := s.inputs.tail, sv := false, ev := Evaluator.rest
      idxA := Fin.ofNat 7 (s.accA.val + (portsNow s).idData.toNat / 16)
      idxB := Fin.ofNat 7 (s.accB.val + (portsNow s).idData.toNat % 16)
      idLen := BitVec.ofNat 8 n
      nonstd := decide (n ≠ 4 ∧ n ≠ 7)
      accA := 0, accB := 0, idCnt := 0
      degen := false, shamt := false
      st := .render
      t := 0
      pace := -((s.cfg.evalLatency : Int) * (s.cfg.sampleRate : Int))
      lat := s.cfg.evalLatency }

/-- R200 in IDLE with no byte offered: only `sv` is cleared; the core waits as long as it takes
(60_exceptions.md R235, R246). -/
def Obligations.IdleWaitsForAByte : Prop :=
  ∀ s : State, configLegal s.cfg = true → (portsNow s).rst = false → s.st = .idle →
    (portsNow s).idValid = false →
    step s = .next { s with inputs := s.inputs.tail, sv := false, ev := Evaluator.rest }

/-- R196: the emission edge, with the value and the flags of `Combine` (R191). -/
def Obligations.EmissionEdgeEmitsTheSample : Prop :=
  ∀ s : State, configLegal s.cfg = true → (portsNow s).rst = false → s.st = .render →
    s.t.toNat < tSamples s.cfg → s.lat = 0 → 0 ≤ s.pace →
    ∃ r : Result, combine s.cfg s.idxA s.idxB s.t = some r ∧
      clockStep s = some { s with
        inputs := s.inputs.tail, ev := Evaluator.rest
        sv := true
        sd := r.v
        si := s.t
        degen := s.degen || r.dz
        shamt := s.shamt || r.sa
        t := s.t + 1
        pace := s.pace + (s.cfg.sampleRate : Int) - (s.cfg.clkHz : Int)
        lat := s.cfg.evalLatency }

/-- R197: the waiting edge. -/
def Obligations.WaitingEdgeCountsDown : Prop :=
  ∀ s : State, configLegal s.cfg = true → (portsNow s).rst = false → s.st = .render →
    s.t.toNat < tSamples s.cfg → (s.lat ≠ 0 ∨ s.pace < 0) →
    step s = .next { s with
      inputs := s.inputs.tail, sv := false, ev := Evaluator.rest
      pace := s.pace + (s.cfg.sampleRate : Int)
      lat := if s.lat > 0 then s.lat - 1 else s.lat }

/-- R198: the final period. -/
def Obligations.FinalPeriodEndsInDone : Prop :=
  ∀ s : State, configLegal s.cfg = true → (portsNow s).rst = false → s.st = .render →
    s.t.toNat = tSamples s.cfg →
    (0 ≤ s.pace → step s = .next { s with
      inputs := s.inputs.tail, sv := false, ev := Evaluator.rest, st := .done }) ∧
    (s.pace < 0 → step s = .next { s with
      inputs := s.inputs.tail, sv := false, ev := Evaluator.rest
      pace := s.pace + (s.cfg.sampleRate : Int) })

/-- R199: the DONE edge; the diagnostics keep their values. -/
def Obligations.DoneEdgeReturnsToIdle : Prop :=
  ∀ s : State, configLegal s.cfg = true → (portsNow s).rst = false → s.st = .done →
    step s = .next { s with
      inputs := s.inputs.tail, sv := false, ev := Evaluator.rest
      st := .idle, t := 0, pace := 0, lat := 0 }

/-! ### Outputs -/

/-- R37 and R171: the output ports; a byte is accepted only in IDLE and never at a reset edge. -/
def Obligations.OutputPortsAreFunctionsOfTheState : Prop :=
  ∀ s : State,
    ((portsOut s).idReady = true ↔ s.st = .idle ∧ (portsNow s).rst = false) ∧
    (portsOut s).sampleValid = s.sv ∧ (portsOut s).sampleData = s.sd ∧
    (portsOut s).sampleIndex = s.si ∧
    ((portsOut s).busy = true ↔ s.st ≠ .idle) ∧ ((portsOut s).done = true ↔ s.st = .done) ∧
    (portsOut s).status = statusWord s ∧
    (byteAccepted s = true → s.st = .idle ∧ (portsNow s).rst = false)

/-- R34: the fields of the status word, bit by bit; the reserved bits are 0, and after reset the
whole word is. -/
def Obligations.StatusWordFields : Prop :=
  (∀ (c : Config) (ins : List PortIn), statusWord (State.resetWith c ins) = 0x00000000) ∧
  ∀ s : State,
    ((statusWord s).extractLsb' 0 2 =
      match s.st with | .idle => 0b00#2 | .render => 0b01#2 | .done => 0b10#2) ∧
    ((statusWord s).extractLsb' 2 3).toNat = s.idxA.val ∧
    ((statusWord s).extractLsb' 5 3).toNat = s.idxB.val ∧
    (statusWord s).getLsbD 8 = s.degen ∧
    (statusWord s).getLsbD 9 = s.shamt ∧
    (statusWord s).getLsbD 10 = s.nonstd ∧
    ((statusWord s).getLsbD 11 = true ↔ s.idCnt ≠ 0) ∧
    (statusWord s).extractLsb' 12 4 = 0 ∧
    (statusWord s).extractLsb' 16 8 = s.idLen ∧
    (statusWord s).extractLsb' 24 8 = 0

/-! ### Rules of the whole machine -/

/-- The invariant holds right after reset, for every legal configuration and whatever the ports
carry, and in the reset state itself. -/
def Obligations.ResetMeetsTheInvariant : Prop :=
  (∀ (c : Config) (ins : List PortIn), configLegal c = true →
    invariant (State.resetWith c ins) = true) ∧ invariant State.reset = true

/-- Every step keeps the invariant. -/
def Obligations.StepKeepsTheInvariant : Prop :=
  ∀ s s' : State, invariant s = true → step s = .next s' → invariant s' = true

/-- R230, R144: in a state that meets the invariant the machine never stops: every step ends in a
next state, without fault or refusal. -/
def Obligations.StepNeverStops : Prop :=
  ∀ s : State, invariant s = true → ∃ s', step s = .next s'

/-- R40: the invariants (a) to (e) in every state that is reached from reset in a legal
configuration, whatever the ports carry. -/
def Obligations.ReachableStatesMeetTheStatedInvariants : Prop :=
  ∀ (c : Config) (ins : List PortIn) (n : Nat) (s : State), configLegal c = true →
    stepRun n (State.resetWith c ins) = .next s →
    (s.accA.val ≤ 6 ∧ s.accB.val ≤ 6 ∧ s.idxA.val ≤ 6 ∧ s.idxB.val ≤ 6) ∧
    sessionCode s.st ≠ 0b11 ∧
    (s.st = .idle → s.t = 0 ∧ s.pace = 0 ∧ s.lat = 0) ∧
    (s.st = .render → s.t.toNat ≤ tSamples c ∧ s.lat ≤ c.evalLatency ∧
      -(c.clkHz : Int) ≤ s.pace ∧ s.pace ≤ (c.sampleRate : Int) - 1) ∧
    (s.st = .render → s.t.toNat < tSamples c → 0 < s.lat → s.pace < 0)

/-- R200: from one cycle to the next, the machine's steps (as many as log entry 1 takes, the
model's choice) are one application of the complete step, the formulas evaluated by the pure
`Combine`. -/
def Obligations.WordStepsRefineTheClockEdge : Prop :=
  ∀ s : State, invariant s = true → cycleBoundary s = true →
    ∃ s', clockStep s = some s' ∧ stepRun (cycleSteps s) s = .next s' ∧
      cycleBoundary s' = true ∧ invariant s' = true

/-- R194: the transitions of the session state machine. -/
def Obligations.SessionStateMachine : Prop :=
  ∀ s s' : State, invariant s = true → clockStep s = some s' →
    ((portsNow s).rst = true → s'.st = .idle) ∧
    ((portsNow s).rst = false →
      (s.st = .idle →
        ((portsNow s).idValid = true ∧ (portsNow s).idLast = true → s'.st = .render) ∧
        (¬((portsNow s).idValid = true ∧ (portsNow s).idLast = true) → s'.st = .idle)) ∧
      (s.st = .render →
        (s.t.toNat < tSamples s.cfg → s'.st = .render) ∧
        (s.t.toNat = tSamples s.cfg → s.pace < 0 → s'.st = .render) ∧
        (s.t.toNat = tSamples s.cfg → 0 ≤ s.pace → s'.st = .done) ∧
        (s'.t ≠ s.t → s'.t = s.t + 1 ∧ 0 ≤ s.pace)) ∧
      (s.st = .done → s'.st = .idle))

/-- R207, R171: in RENDER and DONE the identifier port has no effect, and only a reset keeps a
session from running to DONE. -/
def Obligations.IdentifierPortIgnoredWhileBusy : Prop :=
  ∀ (s : State) (p q : PortIn) (rest : List PortIn), s.st ≠ .idle → p.rst = q.rst →
    clockStep { s with inputs := p :: rest } = clockStep { s with inputs := q :: rest } ∧
    (∀ s', p.rst = false → s.st = .render → clockStep { s with inputs := p :: rest } = some s' →
      s'.st = .render ∨ (s'.st = .done ∧ tSamples s.cfg ≤ s.t.toNat))

/-- R25: the Selector Indices change only at a session-start edge (or a reset). -/
def Obligations.IndicesChangeOnlyAtSessionStart : Prop :=
  ∀ s s' : State, step s = .next s' → (s'.idxA ≠ s.idxA ∨ s'.idxB ≠ s.idxB) →
    (portsNow s).rst = true ∨
      (s.st = .idle ∧ byteAccepted s = true ∧ (portsNow s).idLast = true)

/-- R33, R239, R240: `degen` and `shamt` are set only by the emission edge of a sample whose
evaluation raised the condition, and cleared only by a session-start edge or a reset. -/
def Obligations.ConditionFlagsAreSticky : Prop :=
  ∀ s s' : State, clockStep s = some s' →
    (s.degen = false → s'.degen = true → emissionDue s = true ∧
      ∃ r, combine s.cfg s.idxA s.idxB s.t = some r ∧ r.dz = true) ∧
    (s.shamt = false → s'.shamt = true → emissionDue s = true ∧
      ∃ r, combine s.cfg s.idxA s.idxB s.t = some r ∧ r.sa = true) ∧
    (emissionDue s = true → ∀ r, combine s.cfg s.idxA s.idxB s.t = some r →
      s'.degen = (s.degen || r.dz) ∧ s'.shamt = (s.shamt || r.sa)) ∧
    ((s.degen = true ∧ s'.degen = false) ∨ (s.shamt = true ∧ s'.shamt = false) →
      (portsNow s).rst = true ∨
        (s.st = .idle ∧ (portsNow s).idValid = true ∧ (portsNow s).idLast = true))

/-- R31, R204: `sv` is 1 for exactly the cycle after an emission edge; `sd` and `si` hold their
values until the next emission or reset. -/
def Obligations.SampleOutputsHold : Prop :=
  ∀ s s' : State, clockStep s = some s' →
    (s'.sv = true ↔ emissionDue s = true) ∧
    (emissionDue s = true → ∀ r, combine s.cfg s.idxA s.idxB s.t = some r →
      s'.sd = r.v ∧ s'.si = s.t) ∧
    (emissionDue s = false → (portsNow s).rst = false → s'.sd = s.sd ∧ s'.si = s.si)

/-- R203: the evaluator's result is ready by its deadline, so a sample is emitted at the first
cycle with `pace >= 0`, and then `pace < R`. -/
def Obligations.NoUnderrun : Prop :=
  ∀ s : State, invariant s = true → s.st = .render → s.t.toNat < tSamples s.cfg →
    (0 < s.lat → s.pace < 0) ∧
    ((portsNow s).rst = false → (emissionDue s = true ↔ 0 ≤ s.pace)) ∧
    (0 ≤ s.pace → s.pace < (s.cfg.sampleRate : Int))

/-- R269: bytes accepted without a last one stay counted: with no byte offered and no reset,
nothing but the shown sample's strobe changes, for any number of cycles. -/
def Obligations.PartialIdentifierStays : Prop :=
  ∀ (n : Nat) (s : State), s.st = .idle → s.ev = Evaluator.rest → s.sv = false →
    (∀ p ∈ s.inputs.take n, p.rst = false ∧ p.idValid = false) →
    clockRun n s = some { s with inputs := s.inputs.drop n } ∧
    (s.idCnt ≠ 0 → (statusWord s).getLsbD 11 = true)

/-! ### Selection -/

/-- R174, R175: the selection function is the sums of the high and of the low nibbles, mod 7. -/
def Obligations.SelectSumsTheNibbles : Prop :=
  ∀ id : List Byte,
    (select id).1.val = ((id.map fun x => x.toNat / 16).sum) % 7 ∧
    (select id).2.val = ((id.map fun x => x.toNat % 16).sum) % 7

/-- R176, R177: an identifier of any length, its bytes offered at any cycles, leaves its selection
in `idx_a` and `idx_b`, its length, saturated, in `id_len`, and `nonstd` set iff the length is
neither 4 nor 7. -/
def Obligations.RegistersComputeTheSelection : Prop :=
  ∀ (s : State) (id : List Byte) (ps rest : List PortIn), id ≠ [] → s.st = .idle →
    s.accA = 0 → s.accB = 0 → s.idCnt = 0 → deliversIdentifier id ps = true →
    s.inputs = ps ++ rest →
    ∃ s', clockRun ps.length s = some s' ∧ s'.st = .render ∧ s'.inputs = rest ∧
      (s'.idxA, s'.idxB) = select id ∧
      s'.idLen.toNat = min id.length 255 ∧
      (s'.nonstd = true ↔ id.length ≠ 4 ∧ id.length ≠ 7) ∧
      sessionStarted s' = true

/-- R178, R180: equal selections do not need equal identifiers: the order of the bytes does not
matter. -/
def Obligations.SelectionIgnoresByteOrder : Prop :=
  ∀ id id' : List Byte, id.Perm id' → select id = select id'

/-! ### Sessions -/

/-- R201: the pacing in render cycle `r` of a session, and the cycle of every emission. -/
def Obligations.EmissionCycles : Prop :=
  ∀ s₀ : State, configLegal s₀.cfg = true → sessionStarted s₀ = true →
    (∀ r : Nat, r ≤ emissionCycle s₀.cfg (tSamples s₀.cfg) → noResetFor r s₀ = true →
      ∃ s, clockRun r s₀ = some s ∧ s.st = .render ∧
        s.t.toNat = ((List.range (tSamples s₀.cfg)).filter
          fun k => decide (emissionCycle s₀.cfg k < r)).length ∧
        s.pace = ((r : Int) - (s₀.cfg.evalLatency : Int)) * (s₀.cfg.sampleRate : Int) -
          (s.t.toNat : Int) * (s₀.cfg.clkHz : Int)) ∧
    (∀ k : Nat, k < tSamples s₀.cfg → noResetFor (emissionCycle s₀.cfg k + 1) s₀ = true →
      ∃ s s' r, clockRun (emissionCycle s₀.cfg k) s₀ = some s ∧ emissionDue s = true ∧
        s.t.toNat = k ∧ clockRun (emissionCycle s₀.cfg k + 1) s₀ = some s' ∧
        combine s₀.cfg s₀.idxA s₀.idxB (BitVec.ofNat 32 k) = some r ∧
        s'.sv = true ∧ s'.si.toNat = k ∧ s'.sd = r.v)

/-- R202: the edge that ends render cycle `L + ceil(T * F / R)` sets DONE; DONE lasts one cycle,
then IDLE. From the emission edge of sample 0 on, that is `ceil(T * F / R)` cycles. -/
def Obligations.SessionEndCycles : Prop :=
  ∀ s₀ : State, configLegal s₀.cfg = true → sessionStarted s₀ = true →
    noResetFor (emissionCycle s₀.cfg (tSamples s₀.cfg) + 2) s₀ = true →
    ∃ s₁ s₂ s₃, clockRun (emissionCycle s₀.cfg (tSamples s₀.cfg)) s₀ = some s₁ ∧
      s₁.st = .render ∧
      clockRun (emissionCycle s₀.cfg (tSamples s₀.cfg) + 1) s₀ = some s₂ ∧
      (portsOut s₂).done = true ∧
      clockRun (emissionCycle s₀.cfg (tSamples s₀.cfg) + 2) s₀ = some s₃ ∧ s₃.st = .idle ∧
      (portsOut s₃).idReady = !(portsNow s₃).rst ∧
      emissionCycle s₀.cfg (tSamples s₀.cfg) =
        emissionCycle s₀.cfg 0 + ceilDiv (tSamples s₀.cfg * s₀.cfg.clkHz) s₀.cfg.sampleRate ∧
      (s₀.cfg.sampleRate ∣ tSamples s₀.cfg * s₀.cfg.clkHz →
        ceilDiv (tSamples s₀.cfg * s₀.cfg.clkHz) s₀.cfg.sampleRate * s₀.cfg.sampleRate =
          tSamples s₀.cfg * s₀.cfg.clkHz)

/-- R190, R192: a session that no reset cuts short shows exactly the T samples, in order, each
once, each the sum of the two selected formulas, and then it has ended. -/
def Obligations.SessionEmitsTheSampleSequence : Prop :=
  ∀ s₀ : State, configLegal s₀.cfg = true → sessionStarted s₀ = true →
    noResetFor (emissionCycle s₀.cfg (tSamples s₀.cfg) + 2) s₀ = true →
    ∃ f : Nat → Result,
      (∀ k, k < tSamples s₀.cfg →
        combine s₀.cfg s₀.idxA s₀.idxB (BitVec.ofNat 32 k) = some (f k)) ∧
      samplesTaken (emissionCycle s₀.cfg (tSamples s₀.cfg) + 2) s₀ =
        (List.range (tSamples s₀.cfg)).map (fun k => (BitVec.ofNat 32 k, (f k).v)) ∧
      ∃ s₃, clockRun (emissionCycle s₀.cfg (tSamples s₀.cfg) + 2) s₀ = some s₃ ∧
        s₃.st = .idle ∧ s₃.sv = false

/-- R261: after a reset edge, in every cycle until a byte is offered, no sample is shown and `done`
is not 1. -/
def Obligations.ResetAbortsTheSession : Prop :=
  ∀ (s s' : State) (n : Nat), (portsNow s).rst = true →
    (∀ p ∈ s.inputs.tail.take n, p.idValid = false) → clockStep s = some s' →
    samplesTaken n s' = [] ∧ ∀ s'', clockRun n s' = some s'' → (portsOut s'').done = false

/-- R264: two IDLE states that differ only in the diagnostics (`idx_a`, `idx_b`, `id_len`,
`nonstd`, `degen`, `shamt`, `sd`, `si`) show the same samples and the same `id_ready`,
`sample_valid`, `busy` and `done` ever after. -/
def Obligations.DiagnosticsDoNotAffectLaterSessions : Prop :=
  ∀ (s d : State) (n : Nat), configLegal s.cfg = true → s.st = .idle → s.sv = false →
    s.ev = Evaluator.rest →
    let s₂ : State := { s with
      idxA := d.idxA, idxB := d.idxB, idLen := d.idLen, nonstd := d.nonstd, degen := d.degen,
      shamt := d.shamt, sd := d.sd, si := d.si }
    samplesTaken n s₂ = samplesTaken n s ∧
    ∃ a b, clockRun n s = some a ∧ clockRun n s₂ = some b ∧
      (portsOut b).idReady = (portsOut a).idReady ∧
      (portsOut b).sampleValid = (portsOut a).sampleValid ∧
      (portsOut b).busy = (portsOut a).busy ∧ (portsOut b).done = (portsOut a).done

/-! ### Written formulas -/

/-- R83, R84: LI32 pushes its constant and NOT complements the top of the stack; neither sets a
flag. -/
def Obligations.PseudoInstructionsExpand : Prop :=
  ∀ (t : Word) (c : Ctx),
    (∀ v : Word, runWords t (li32 v) c = some { c with stack := v :: c.stack }) ∧
    (∀ (x : Word) (below : List Word), c.stack = x :: below →
      runWords t notWords c = some { c with stack := (x ^^^ 0xFFFFFFFF) :: below })

/-- R82: the descriptor of an expression evaluates, at every index, to the expression's value and
flags. -/
def Obligations.CompiledExpressionsEvaluate : Prop :=
  ∀ (e : Expr) (t : Word), evalDescriptor (expressionWords e) t = some (denote t e)

/-! ### The names of the refusals -/

/-- R231: the step refuses as E1 exactly where a catalog descriptor fails `WF`, and as E2 exactly
where all 14 satisfy it and a numeric constraint of R8 fails. That E1 is the name where both fail is
the model's choice (log entry 11). -/
def Obligations.RefusalsNameTheirCondition : Prop :=
  ∀ s : State,
    (step s = .refused .illegalDescriptor ↔
      ∃ (cat : Cat) (i : Fin 7), descriptorWf (descriptorOf s.cfg cat i) = false) ∧
    (step s = .refused .illegalConfig ↔
      (∀ (cat : Cat) (i : Fin 7), descriptorWf (descriptorOf s.cfg cat i) = true) ∧
      ¬(1 ≤ s.cfg.sampleRate ∧ 1 ≤ tSamples s.cfg ∧ tSamples s.cfg ≤ 2 ^ 32 - 1 ∧
        (s.cfg.evalLatency + 1) * s.cfg.sampleRate ≤ s.cfg.clkHz))
end

