-- ==== Sys2Proof/Laws/Decode.lean ====
section
/-! SUPPORT. What the fields, the decoder, the encoder and the well-formedness pass do, said once. -/

namespace Sys2Proof

theorem opField_toNat (w : Word) : (opField w).toNat = w.toNat / 2 ^ 24 := by
  have := w.isLt
  simp only [opField, BitVec.extractLsb'_toNat, Nat.shiftRight_eq_div_pow]
  omega

theorem immField_toNat (w : Word) : (immField w).toNat = w.toNat % 2 ^ 24 := by
  simp only [immField, BitVec.extractLsb'_toNat, Nat.shiftRight_eq_div_pow]
  omega

theorem append_toNat (a : BitVec 8) (b : BitVec 24) :
    (a ++ b).toNat = a.toNat * 2 ^ 24 + b.toNat := by
  rw [BitVec.toNat_append, ← Nat.shiftLeft_add_eq_or_of_lt b.isLt, Nat.shiftLeft_eq]

theorem word_eq_fields (w : Word) : opField w ++ immField w = w := by
  apply BitVec.eq_of_toNat_eq
  rw [append_toNat, opField_toNat, immField_toNat]
  omega

@[simp] theorem opField_append (a : BitVec 8) (b : BitVec 24) : opField (a ++ b) = a := by
  have := a.isLt
  have := b.isLt
  apply BitVec.eq_of_toNat_eq
  rw [opField_toNat, append_toNat]
  omega

@[simp] theorem immField_append (a : BitVec 8) (b : BitVec 24) : immField (a ++ b) = b := by
  have := b.isLt
  apply BitVec.eq_of_toNat_eq
  rw [immField_toNat, append_toNat]
  omega

@[simp] theorem opField_encode (i : Instr) : opField (encode i) = opcodeOf i := opField_append _ _

@[simp] theorem immField_encode (i : Instr) : immField (encode i) = immOf i := immField_append _ _

theorem encode_toNat (i : Instr) :
    (encode i).toNat = (opcodeOf i).toNat * 2 ^ 24 + (immOf i).toNat := append_toNat _ _

theorem plainWord_ok {i j : Instr} {w : Word} :
    plainWord i w = .ok j ↔ j = i ∧ immField w = 0 := by
  unfold plainWord
  split <;> simp_all [eq_comm]

/-- The decoder reads an instruction iff the word's two fields are that instruction's. -/
theorem decode_ok_iff_fields (w : Word) (i : Instr) :
    decode w = .ok i ↔ opField w = opcodeOf i ∧ immField w = immOf i := by
  constructor
  · intro h
    unfold decode at h
    split at h
    all_goals first
      | (rw [plainWord_ok] at h; obtain ⟨rfl, h0⟩ := h; exact ⟨by assumption, h0⟩)
      | (cases h; exact ⟨by assumption, rfl⟩)
      | cases h
  · rintro ⟨ho, hi⟩
    unfold decode
    rw [ho]
    cases i <;> simp_all [opcodeOf, immOf, plainWord]

theorem fields_eq_iff (w : Word) (i : Instr) :
    opField w = opcodeOf i ∧ immField w = immOf i ↔ w = encode i := by
  constructor
  · rintro ⟨ho, hi⟩
    rw [← word_eq_fields w, ho, hi]; rfl
  · rintro rfl
    simp

theorem encode_injective {i j : Instr} (h : encode i = encode j) : i = j := by
  have hi := (decode_ok_iff_fields (encode i) i).2 ⟨by simp, by simp⟩
  have hj := (decode_ok_iff_fields (encode j) j).2 ⟨by simp, by simp⟩
  rw [h, hj] at hi
  injection hi with e
  exact e.symm

/-- A descriptor decodes to a program iff it is that program's words. -/
theorem decodeWords_ok_iff (ws : List Word) (is : List Instr) :
    decodeWords ws = .ok is ↔ ws = is.map encode := by
  induction ws generalizing is with
  | nil => cases is <;> simp [decodeWords]
  | cons w ws ih =>
    unfold decodeWords
    constructor
    · intro h
      split at h
      · cases h
      · rename_i i hi
        split at h
        · cases h
        · rename_i js hj
          injection h with h
          subst h
          rw [ih] at hj
          rw [decode_ok_iff_fields, fields_eq_iff] at hi
          simp [hi, hj]
    · intro h
      cases is with
      | nil => simp at h
      | cons i js =>
        simp only [List.map_cons, List.cons.injEq] at h
        have hi := (decode_ok_iff_fields w i).2 ((fields_eq_iff w i).2 h.1)
        have hj := (ih js).2 h.2
        simp [hi, hj]

@[simp] theorem decodeWords_map_encode (is : List Instr) :
    decodeWords (is.map encode) = .ok is := (decodeWords_ok_iff _ _).2 rfl

theorem pops_cases (i : Instr) : i = .endOp ∨ i.pops = 0 ∨ i.pops = 2 := by
  cases i <;> simp [Instr.pops]

theorem ne_endOp_of_pops {i : Instr} (h : i.pops ≠ 1) : i ≠ .endOp := by
  rintro rfl
  exact h rfl

theorem checkFrom_endOp (d : Nat) (rest : List Instr) :
    checkFrom d (.endOp :: rest) = .ok () ↔ rest = [] ∧ d = 1 := by
  unfold checkFrom
  by_cases h : rest = [] <;> by_cases h1 : d = 1 <;> simp [h, h1]

theorem checkFrom_leaf {i : Instr} (hi : i.pops = 0) (d : Nat) (rest : List Instr) :
    checkFrom d (i :: rest) = .ok () ↔ d < stackDepth ∧ checkFrom (d + 1) rest = .ok () := by
  cases i <;> simp [Instr.pops] at hi <;> rw [checkFrom] <;> by_cases h : d < stackDepth <;>
    simp [h]

theorem checkFrom_binary {i : Instr} (hi : i.pops = 2) (d : Nat) (rest : List Instr) :
    checkFrom d (i :: rest) = .ok () ↔ 2 ≤ d ∧ checkFrom (d - 1) rest = .ok () := by
  cases i <;> simp [Instr.pops] at hi <;> rw [checkFrom] <;> by_cases h : 2 ≤ d <;> simp [h]

theorem isOk_iff {ε : Type} {x : Except ε Unit} : x.isOk = true ↔ x = .ok () := by
  cases x <;> simp [Except.isOk, Except.toBool]

/-- `WF` of a descriptor, in terms of its program. -/
theorem descriptorWf_iff (ws : Descriptor) :
    descriptorWf ws = true ↔
      ∃ is, ws = is.map encode ∧ is.length ≤ maxOps ∧ checkFrom 0 is = .ok () := by
  unfold descriptorWf checkDescriptor
  rw [isOk_iff]
  constructor
  · intro h
    split at h
    · cases h
    · rename_i is his
      refine ⟨is, (decodeWords_ok_iff _ _).1 his, ?_⟩
      unfold checkProgram at h
      split at h
      · cases h
      · rename_i hl
        simp only [not_or, Nat.not_lt] at hl
        exact ⟨hl.2, h⟩
  · rintro ⟨is, rfl, hl, hc⟩
    have hne : is ≠ [] := by
      rintro rfl
      simp [checkFrom] at hc
    simp [checkProgram, hne, Nat.not_lt.2 hl, hc]

end Sys2Proof
end

