-- ==== Sys2Proof/Laws/State.lean ====
section
/-! SUPPORT. One lemma per field and update of the state, each true by definition. -/

namespace Sys2Proof.Machine

@[simp] theorem wordDone_cfg (s : State) (l : List Word) (dz sa : Bool) :
    (wordDone s l dz sa).cfg = s.cfg := rfl
@[simp] theorem wordDone_inputs (s : State) (l : List Word) (dz sa : Bool) :
    (wordDone s l dz sa).inputs = s.inputs := rfl
@[simp] theorem wordDone_st (s : State) (l : List Word) (dz sa : Bool) :
    (wordDone s l dz sa).st = s.st := rfl
@[simp] theorem wordDone_accA (s : State) (l : List Word) (dz sa : Bool) :
    (wordDone s l dz sa).accA = s.accA := rfl
@[simp] theorem wordDone_accB (s : State) (l : List Word) (dz sa : Bool) :
    (wordDone s l dz sa).accB = s.accB := rfl
@[simp] theorem wordDone_idCnt (s : State) (l : List Word) (dz sa : Bool) :
    (wordDone s l dz sa).idCnt = s.idCnt := rfl
@[simp] theorem wordDone_idxA (s : State) (l : List Word) (dz sa : Bool) :
    (wordDone s l dz sa).idxA = s.idxA := rfl
@[simp] theorem wordDone_idxB (s : State) (l : List Word) (dz sa : Bool) :
    (wordDone s l dz sa).idxB = s.idxB := rfl
@[simp] theorem wordDone_idLen (s : State) (l : List Word) (dz sa : Bool) :
    (wordDone s l dz sa).idLen = s.idLen := rfl
@[simp] theorem wordDone_nonstd (s : State) (l : List Word) (dz sa : Bool) :
    (wordDone s l dz sa).nonstd = s.nonstd := rfl
@[simp] theorem wordDone_t (s : State) (l : List Word) (dz sa : Bool) :
    (wordDone s l dz sa).t = s.t := rfl
@[simp] theorem wordDone_pace (s : State) (l : List Word) (dz sa : Bool) :
    (wordDone s l dz sa).pace = s.pace := rfl
@[simp] theorem wordDone_lat (s : State) (l : List Word) (dz sa : Bool) :
    (wordDone s l dz sa).lat = s.lat := rfl
@[simp] theorem wordDone_sv (s : State) (l : List Word) (dz sa : Bool) :
    (wordDone s l dz sa).sv = s.sv := rfl
@[simp] theorem wordDone_sd (s : State) (l : List Word) (dz sa : Bool) :
    (wordDone s l dz sa).sd = s.sd := rfl
@[simp] theorem wordDone_si (s : State) (l : List Word) (dz sa : Bool) :
    (wordDone s l dz sa).si = s.si := rfl
@[simp] theorem wordDone_degen (s : State) (l : List Word) (dz sa : Bool) :
    (wordDone s l dz sa).degen = s.degen := rfl
@[simp] theorem wordDone_shamt (s : State) (l : List Word) (dz sa : Bool) :
    (wordDone s l dz sa).shamt = s.shamt := rfl
@[simp] theorem wordDone_ev (s : State) (l : List Word) (dz sa : Bool) :
    (wordDone s l dz sa).ev = { s.ev with stack := l, dz := s.ev.dz || dz, sa := s.ev.sa || sa, k := s.ev.k + 1 } := rfl
@[simp] theorem beginFormula_cfg (p : Phase) (s : State) : (beginFormula p s).cfg = s.cfg := rfl
@[simp] theorem beginFormula_inputs (p : Phase) (s : State) :
    (beginFormula p s).inputs = s.inputs := rfl
@[simp] theorem beginFormula_st (p : Phase) (s : State) : (beginFormula p s).st = s.st := rfl
@[simp] theorem beginFormula_accA (p : Phase) (s : State) : (beginFormula p s).accA = s.accA := rfl
@[simp] theorem beginFormula_accB (p : Phase) (s : State) : (beginFormula p s).accB = s.accB := rfl
@[simp] theorem beginFormula_idCnt (p : Phase) (s : State) :
    (beginFormula p s).idCnt = s.idCnt := rfl
@[simp] theorem beginFormula_idxA (p : Phase) (s : State) : (beginFormula p s).idxA = s.idxA := rfl
@[simp] theorem beginFormula_idxB (p : Phase) (s : State) : (beginFormula p s).idxB = s.idxB := rfl
@[simp] theorem beginFormula_idLen (p : Phase) (s : State) :
    (beginFormula p s).idLen = s.idLen := rfl
@[simp] theorem beginFormula_nonstd (p : Phase) (s : State) :
    (beginFormula p s).nonstd = s.nonstd := rfl
@[simp] theorem beginFormula_t (p : Phase) (s : State) : (beginFormula p s).t = s.t := rfl
@[simp] theorem beginFormula_pace (p : Phase) (s : State) : (beginFormula p s).pace = s.pace := rfl
@[simp] theorem beginFormula_lat (p : Phase) (s : State) : (beginFormula p s).lat = s.lat := rfl
@[simp] theorem beginFormula_sv (p : Phase) (s : State) : (beginFormula p s).sv = s.sv := rfl
@[simp] theorem beginFormula_sd (p : Phase) (s : State) : (beginFormula p s).sd = s.sd := rfl
@[simp] theorem beginFormula_si (p : Phase) (s : State) : (beginFormula p s).si = s.si := rfl
@[simp] theorem beginFormula_degen (p : Phase) (s : State) :
    (beginFormula p s).degen = s.degen := rfl
@[simp] theorem beginFormula_shamt (p : Phase) (s : State) :
    (beginFormula p s).shamt = s.shamt := rfl
@[simp] theorem beginFormula_ev (p : Phase) (s : State) :
    (beginFormula p s).ev = Evaluator.start p := rfl
@[simp] theorem beginEdge_cfg (s : State) : (beginEdge s).cfg = s.cfg := rfl
@[simp] theorem beginEdge_inputs (s : State) : (beginEdge s).inputs = s.inputs.tail := rfl
@[simp] theorem beginEdge_st (s : State) : (beginEdge s).st = s.st := rfl
@[simp] theorem beginEdge_accA (s : State) : (beginEdge s).accA = s.accA := rfl
@[simp] theorem beginEdge_accB (s : State) : (beginEdge s).accB = s.accB := rfl
@[simp] theorem beginEdge_idCnt (s : State) : (beginEdge s).idCnt = s.idCnt := rfl
@[simp] theorem beginEdge_idxA (s : State) : (beginEdge s).idxA = s.idxA := rfl
@[simp] theorem beginEdge_idxB (s : State) : (beginEdge s).idxB = s.idxB := rfl
@[simp] theorem beginEdge_idLen (s : State) : (beginEdge s).idLen = s.idLen := rfl
@[simp] theorem beginEdge_nonstd (s : State) : (beginEdge s).nonstd = s.nonstd := rfl
@[simp] theorem beginEdge_t (s : State) : (beginEdge s).t = s.t := rfl
@[simp] theorem beginEdge_pace (s : State) : (beginEdge s).pace = s.pace := rfl
@[simp] theorem beginEdge_lat (s : State) : (beginEdge s).lat = s.lat := rfl
@[simp] theorem beginEdge_sv (s : State) : (beginEdge s).sv = false := rfl
@[simp] theorem beginEdge_sd (s : State) : (beginEdge s).sd = s.sd := rfl
@[simp] theorem beginEdge_si (s : State) : (beginEdge s).si = s.si := rfl
@[simp] theorem beginEdge_degen (s : State) : (beginEdge s).degen = s.degen := rfl
@[simp] theorem beginEdge_shamt (s : State) : (beginEdge s).shamt = s.shamt := rfl
@[simp] theorem beginEdge_ev (s : State) : (beginEdge s).ev = Evaluator.rest := rfl
@[simp] theorem emitSample_cfg (r : Result) (s : State) : (emitSample r s).cfg = s.cfg := rfl
@[simp] theorem emitSample_inputs (r : Result) (s : State) :
    (emitSample r s).inputs = s.inputs := rfl
@[simp] theorem emitSample_st (r : Result) (s : State) : (emitSample r s).st = s.st := rfl
@[simp] theorem emitSample_accA (r : Result) (s : State) : (emitSample r s).accA = s.accA := rfl
@[simp] theorem emitSample_accB (r : Result) (s : State) : (emitSample r s).accB = s.accB := rfl
@[simp] theorem emitSample_idCnt (r : Result) (s : State) : (emitSample r s).idCnt = s.idCnt := rfl
@[simp] theorem emitSample_idxA (r : Result) (s : State) : (emitSample r s).idxA = s.idxA := rfl
@[simp] theorem emitSample_idxB (r : Result) (s : State) : (emitSample r s).idxB = s.idxB := rfl
@[simp] theorem emitSample_idLen (r : Result) (s : State) : (emitSample r s).idLen = s.idLen := rfl
@[simp] theorem emitSample_nonstd (r : Result) (s : State) :
    (emitSample r s).nonstd = s.nonstd := rfl
@[simp] theorem emitSample_t (r : Result) (s : State) :
    (emitSample r s).t = wrap32 (s.t.toNat + 1) := rfl
@[simp] theorem emitSample_pace (r : Result) (s : State) :
    (emitSample r s).pace = s.pace + (s.cfg.sampleRate : Int) - (s.cfg.clkHz : Int) := rfl
@[simp] theorem emitSample_lat (r : Result) (s : State) :
    (emitSample r s).lat = s.cfg.evalLatency := rfl
@[simp] theorem emitSample_sv (r : Result) (s : State) : (emitSample r s).sv = true := rfl
@[simp] theorem emitSample_sd (r : Result) (s : State) : (emitSample r s).sd = r.v := rfl
@[simp] theorem emitSample_si (r : Result) (s : State) : (emitSample r s).si = s.t := rfl
@[simp] theorem emitSample_degen (r : Result) (s : State) :
    (emitSample r s).degen = (s.degen || r.dz) := rfl
@[simp] theorem emitSample_shamt (r : Result) (s : State) :
    (emitSample r s).shamt = (s.shamt || r.sa) := rfl
@[simp] theorem emitSample_ev (r : Result) (s : State) : (emitSample r s).ev = s.ev := rfl
@[simp] theorem waitEdge_cfg (s : State) : (waitEdge s).cfg = s.cfg := rfl
@[simp] theorem waitEdge_inputs (s : State) : (waitEdge s).inputs = s.inputs := rfl
@[simp] theorem waitEdge_st (s : State) : (waitEdge s).st = s.st := rfl
@[simp] theorem waitEdge_accA (s : State) : (waitEdge s).accA = s.accA := rfl
@[simp] theorem waitEdge_accB (s : State) : (waitEdge s).accB = s.accB := rfl
@[simp] theorem waitEdge_idCnt (s : State) : (waitEdge s).idCnt = s.idCnt := rfl
@[simp] theorem waitEdge_idxA (s : State) : (waitEdge s).idxA = s.idxA := rfl
@[simp] theorem waitEdge_idxB (s : State) : (waitEdge s).idxB = s.idxB := rfl
@[simp] theorem waitEdge_idLen (s : State) : (waitEdge s).idLen = s.idLen := rfl
@[simp] theorem waitEdge_nonstd (s : State) : (waitEdge s).nonstd = s.nonstd := rfl
@[simp] theorem waitEdge_t (s : State) : (waitEdge s).t = s.t := rfl
@[simp] theorem waitEdge_pace (s : State) :
    (waitEdge s).pace = s.pace + (s.cfg.sampleRate : Int) := rfl
@[simp] theorem waitEdge_lat (s : State) :
    (waitEdge s).lat = if 0 < s.lat then s.lat - 1 else s.lat := rfl
@[simp] theorem waitEdge_sv (s : State) : (waitEdge s).sv = s.sv := rfl
@[simp] theorem waitEdge_sd (s : State) : (waitEdge s).sd = s.sd := rfl
@[simp] theorem waitEdge_si (s : State) : (waitEdge s).si = s.si := rfl
@[simp] theorem waitEdge_degen (s : State) : (waitEdge s).degen = s.degen := rfl
@[simp] theorem waitEdge_shamt (s : State) : (waitEdge s).shamt = s.shamt := rfl
@[simp] theorem waitEdge_ev (s : State) : (waitEdge s).ev = s.ev := rfl
@[simp] theorem doneEdge_cfg (s : State) : (doneEdge s).cfg = s.cfg := rfl
@[simp] theorem doneEdge_inputs (s : State) : (doneEdge s).inputs = s.inputs := rfl
@[simp] theorem doneEdge_st (s : State) : (doneEdge s).st = .idle := rfl
@[simp] theorem doneEdge_accA (s : State) : (doneEdge s).accA = s.accA := rfl
@[simp] theorem doneEdge_accB (s : State) : (doneEdge s).accB = s.accB := rfl
@[simp] theorem doneEdge_idCnt (s : State) : (doneEdge s).idCnt = s.idCnt := rfl
@[simp] theorem doneEdge_idxA (s : State) : (doneEdge s).idxA = s.idxA := rfl
@[simp] theorem doneEdge_idxB (s : State) : (doneEdge s).idxB = s.idxB := rfl
@[simp] theorem doneEdge_idLen (s : State) : (doneEdge s).idLen = s.idLen := rfl
@[simp] theorem doneEdge_nonstd (s : State) : (doneEdge s).nonstd = s.nonstd := rfl
@[simp] theorem doneEdge_t (s : State) : (doneEdge s).t = 0 := rfl
@[simp] theorem doneEdge_pace (s : State) : (doneEdge s).pace = 0 := rfl
@[simp] theorem doneEdge_lat (s : State) : (doneEdge s).lat = 0 := rfl
@[simp] theorem doneEdge_sv (s : State) : (doneEdge s).sv = s.sv := rfl
@[simp] theorem doneEdge_sd (s : State) : (doneEdge s).sd = s.sd := rfl
@[simp] theorem doneEdge_si (s : State) : (doneEdge s).si = s.si := rfl
@[simp] theorem doneEdge_degen (s : State) : (doneEdge s).degen = s.degen := rfl
@[simp] theorem doneEdge_shamt (s : State) : (doneEdge s).shamt = s.shamt := rfl
@[simp] theorem doneEdge_ev (s : State) : (doneEdge s).ev = s.ev := rfl
@[simp] theorem acceptByte_cfg (x : Byte) (s : State) : (acceptByte x s).cfg = s.cfg := rfl
@[simp] theorem acceptByte_inputs (x : Byte) (s : State) :
    (acceptByte x s).inputs = s.inputs := rfl
@[simp] theorem acceptByte_st (x : Byte) (s : State) : (acceptByte x s).st = s.st := rfl
@[simp] theorem acceptByte_accA (x : Byte) (s : State) :
    (acceptByte x s).accA = addResidue s.accA (highNibble x) := rfl
@[simp] theorem acceptByte_accB (x : Byte) (s : State) :
    (acceptByte x s).accB = addResidue s.accB (lowNibble x) := rfl
@[simp] theorem acceptByte_idCnt (x : Byte) (s : State) :
    (acceptByte x s).idCnt = countByte s.idCnt := rfl
@[simp] theorem acceptByte_idxA (x : Byte) (s : State) : (acceptByte x s).idxA = s.idxA := rfl
@[simp] theorem acceptByte_idxB (x : Byte) (s : State) : (acceptByte x s).idxB = s.idxB := rfl
@[simp] theorem acceptByte_idLen (x : Byte) (s : State) : (acceptByte x s).idLen = s.idLen := rfl
@[simp] theorem acceptByte_nonstd (x : Byte) (s : State) :
    (acceptByte x s).nonstd = s.nonstd := rfl
@[simp] theorem acceptByte_t (x : Byte) (s : State) : (acceptByte x s).t = s.t := rfl
@[simp] theorem acceptByte_pace (x : Byte) (s : State) : (acceptByte x s).pace = s.pace := rfl
@[simp] theorem acceptByte_lat (x : Byte) (s : State) : (acceptByte x s).lat = s.lat := rfl
@[simp] theorem acceptByte_sv (x : Byte) (s : State) : (acceptByte x s).sv = s.sv := rfl
@[simp] theorem acceptByte_sd (x : Byte) (s : State) : (acceptByte x s).sd = s.sd := rfl
@[simp] theorem acceptByte_si (x : Byte) (s : State) : (acceptByte x s).si = s.si := rfl
@[simp] theorem acceptByte_degen (x : Byte) (s : State) : (acceptByte x s).degen = s.degen := rfl
@[simp] theorem acceptByte_shamt (x : Byte) (s : State) : (acceptByte x s).shamt = s.shamt := rfl
@[simp] theorem acceptByte_ev (x : Byte) (s : State) : (acceptByte x s).ev = s.ev := rfl
@[simp] theorem startSession_cfg (x : Byte) (s : State) : (startSession x s).cfg = s.cfg := rfl
@[simp] theorem startSession_inputs (x : Byte) (s : State) :
    (startSession x s).inputs = s.inputs := rfl
@[simp] theorem startSession_st (x : Byte) (s : State) : (startSession x s).st = .render := rfl
@[simp] theorem startSession_accA (x : Byte) (s : State) : (startSession x s).accA = 0 := rfl
@[simp] theorem startSession_accB (x : Byte) (s : State) : (startSession x s).accB = 0 := rfl
@[simp] theorem startSession_idCnt (x : Byte) (s : State) : (startSession x s).idCnt = 0 := rfl
@[simp] theorem startSession_idxA (x : Byte) (s : State) :
    (startSession x s).idxA = addResidue s.accA (highNibble x) := rfl
@[simp] theorem startSession_idxB (x : Byte) (s : State) :
    (startSession x s).idxB = addResidue s.accB (lowNibble x) := rfl
@[simp] theorem startSession_idLen (x : Byte) (s : State) :
    (startSession x s).idLen = countByte s.idCnt := rfl
@[simp] theorem startSession_nonstd (x : Byte) (s : State) :
    (startSession x s).nonstd = nonstandard (countByte s.idCnt) := rfl
@[simp] theorem startSession_t (x : Byte) (s : State) : (startSession x s).t = 0 := rfl
@[simp] theorem startSession_pace (x : Byte) (s : State) :
    (startSession x s).pace = -((s.cfg.evalLatency : Int) * (s.cfg.sampleRate : Int)) := rfl
@[simp] theorem startSession_lat (x : Byte) (s : State) :
    (startSession x s).lat = s.cfg.evalLatency := rfl
@[simp] theorem startSession_sv (x : Byte) (s : State) : (startSession x s).sv = s.sv := rfl
@[simp] theorem startSession_sd (x : Byte) (s : State) : (startSession x s).sd = s.sd := rfl
@[simp] theorem startSession_si (x : Byte) (s : State) : (startSession x s).si = s.si := rfl
@[simp] theorem startSession_degen (x : Byte) (s : State) : (startSession x s).degen = false := rfl
@[simp] theorem startSession_shamt (x : Byte) (s : State) : (startSession x s).shamt = false := rfl
@[simp] theorem startSession_ev (x : Byte) (s : State) : (startSession x s).ev = s.ev := rfl
@[simp] theorem resetEdge_cfg (s : State) : (resetEdge s).cfg = s.cfg := rfl
@[simp] theorem resetEdge_inputs (s : State) : (resetEdge s).inputs = s.inputs := rfl
@[simp] theorem resetEdge_st (s : State) : (resetEdge s).st = .idle := rfl
@[simp] theorem resetEdge_accA (s : State) : (resetEdge s).accA = 0 := rfl
@[simp] theorem resetEdge_accB (s : State) : (resetEdge s).accB = 0 := rfl
@[simp] theorem resetEdge_idCnt (s : State) : (resetEdge s).idCnt = 0 := rfl
@[simp] theorem resetEdge_idxA (s : State) : (resetEdge s).idxA = 0 := rfl
@[simp] theorem resetEdge_idxB (s : State) : (resetEdge s).idxB = 0 := rfl
@[simp] theorem resetEdge_idLen (s : State) : (resetEdge s).idLen = 0 := rfl
@[simp] theorem resetEdge_nonstd (s : State) : (resetEdge s).nonstd = false := rfl
@[simp] theorem resetEdge_t (s : State) : (resetEdge s).t = 0 := rfl
@[simp] theorem resetEdge_pace (s : State) : (resetEdge s).pace = 0 := rfl
@[simp] theorem resetEdge_lat (s : State) : (resetEdge s).lat = 0 := rfl
@[simp] theorem resetEdge_sv (s : State) : (resetEdge s).sv = false := rfl
@[simp] theorem resetEdge_sd (s : State) : (resetEdge s).sd = 0 := rfl
@[simp] theorem resetEdge_si (s : State) : (resetEdge s).si = 0 := rfl
@[simp] theorem resetEdge_degen (s : State) : (resetEdge s).degen = false := rfl
@[simp] theorem resetEdge_shamt (s : State) : (resetEdge s).shamt = false := rfl
@[simp] theorem resetEdge_ev (s : State) : (resetEdge s).ev = Evaluator.rest := rfl


@[simp] theorem finalEdge_cfg (s : State) : (finalEdge s).cfg = s.cfg := by
  unfold finalEdge; split <;> rfl
@[simp] theorem finalEdge_inputs (s : State) : (finalEdge s).inputs = s.inputs := by
  unfold finalEdge; split <;> rfl
@[simp] theorem finalEdge_accA (s : State) : (finalEdge s).accA = s.accA := by
  unfold finalEdge; split <;> rfl
@[simp] theorem finalEdge_accB (s : State) : (finalEdge s).accB = s.accB := by
  unfold finalEdge; split <;> rfl
@[simp] theorem finalEdge_idCnt (s : State) : (finalEdge s).idCnt = s.idCnt := by
  unfold finalEdge; split <;> rfl
@[simp] theorem finalEdge_idxA (s : State) : (finalEdge s).idxA = s.idxA := by
  unfold finalEdge; split <;> rfl
@[simp] theorem finalEdge_idxB (s : State) : (finalEdge s).idxB = s.idxB := by
  unfold finalEdge; split <;> rfl
@[simp] theorem finalEdge_idLen (s : State) : (finalEdge s).idLen = s.idLen := by
  unfold finalEdge; split <;> rfl
@[simp] theorem finalEdge_nonstd (s : State) : (finalEdge s).nonstd = s.nonstd := by
  unfold finalEdge; split <;> rfl
@[simp] theorem finalEdge_t (s : State) : (finalEdge s).t = s.t := by
  unfold finalEdge; split <;> rfl
@[simp] theorem finalEdge_lat (s : State) : (finalEdge s).lat = s.lat := by
  unfold finalEdge; split <;> rfl
@[simp] theorem finalEdge_sv (s : State) : (finalEdge s).sv = s.sv := by
  unfold finalEdge; split <;> rfl
@[simp] theorem finalEdge_sd (s : State) : (finalEdge s).sd = s.sd := by
  unfold finalEdge; split <;> rfl
@[simp] theorem finalEdge_si (s : State) : (finalEdge s).si = s.si := by
  unfold finalEdge; split <;> rfl
@[simp] theorem finalEdge_degen (s : State) : (finalEdge s).degen = s.degen := by
  unfold finalEdge; split <;> rfl
@[simp] theorem finalEdge_shamt (s : State) : (finalEdge s).shamt = s.shamt := by
  unfold finalEdge; split <;> rfl
@[simp] theorem finalEdge_ev (s : State) : (finalEdge s).ev = s.ev := by
  unfold finalEdge; split <;> rfl

end Sys2Proof.Machine
end

