-- ==== Sys2Proof/Laws/Ops.lean ====
section
/-! SUPPORT. What the shared operations of the instructions can do, said once, and exec in terms of
the pure word effect. -/

namespace Sys2Proof.Machine

theorem popTwo_eq_some {l : List Word} {a b : Word} {below : List Word} :
    popTwo l = some (a, b, below) ↔ l = b :: a :: below := by
  unfold popTwo
  split <;> simp
  constructor
  · rintro ⟨rfl, rfl, rfl⟩
    exact ⟨rfl, rfl, rfl⟩
  · rintro ⟨rfl, rfl, rfl⟩
    exact ⟨rfl, rfl, rfl⟩

theorem popTwo_eq_none {l : List Word} : popTwo l = none ↔ l.length < 2 := by
  unfold popTwo
  split <;> simp

/-- What a push can do. -/
theorem pushWord_next {v : Word} {s s' : State} :
    pushWord v s = .next s' ↔
      s.ev.stack.length < stackDepth ∧ s' = wordDone s (v :: s.ev.stack) false false := by
  unfold pushWord
  split <;> simp_all [eq_comm]

/-- What a binary word can do. -/
theorem binaryWord_next {f : Word → Word → Word} {dz sa : Word → Word → Bool} {s s' : State} :
    binaryWord f dz sa s = .next s' ↔
      ∃ a b below, s.ev.stack = b :: a :: below ∧
        s' = wordDone s (f a b :: below) (dz a b) (sa a b) := by
  unfold binaryWord
  split
  · rename_i a b below h
    rw [popTwo_eq_some] at h
    constructor
    · intro h'
      injection h' with h'
      exact ⟨a, b, below, h, h'.symm⟩
    · rintro ⟨a', b', below', h', rfl⟩
      rw [h] at h'
      injection h' with e1 h'
      injection h' with e2 e3
      subst e1 e2 e3
      rfl
  · rename_i h
    rw [popTwo_eq_none] at h
    simp only [reduceCtorEq, false_iff]
    rintro ⟨a, b, below, h', _⟩
    simp [h'] at h

/-- What END can do. -/
theorem returnResult_next {s s' : State} :
    returnResult s = .next s' ↔
      ∃ v below, s.ev.stack = v :: below ∧
        s' = { s with ev := { s.ev with
          stack := below, result := some ⟨v, s.ev.dz, s.ev.sa⟩ } } := by
  unfold returnResult
  split
  · rename_i v below h
    simp [h, eq_comm]
  · rename_i h
    simp [h]

/-- A word other than END takes the machine's context where `wordEffect` takes it. -/
theorem exec_eq_wordEffect {i : Instr} (hi : i ≠ .endOp) {s : State} {c : Ctx}
    (hroom : i.pops = 0 → s.ev.stack.length < stackDepth)
    (h : wordEffect s.t i ⟨s.ev.stack, s.ev.dz, s.ev.sa⟩ = some c) :
    exec i s = .next { s with ev := { s.ev with
      stack := c.stack, dz := c.dz, sa := c.sa, k := s.ev.k + 1 } } := by
  cases i
  case endOp => exact absurd rfl hi
  case t | const =>
    simp only [wordEffect, ctxPush, Option.some.injEq] at h
    subst h
    simp [exec, execT, execConst, pushWord, hroom rfl, wordDone]
  all_goals
    simp only [wordEffect, ctxBinary] at h
    split at h
    · rename_i a b below hp
      simp only [Option.some.injEq] at h
      subst h
      simp [exec, execAnd, execOr, execXor, execAdd, execSub, execMul, execDivu, execModu, execShl,
        execShr, binaryWord, hp, wordDone]
    · cases h

/-- A leaf pushes one value and touches no flag. -/
theorem wordEffect_leaf {i : Instr} (hi : i.pops = 0) (t : Word) (c : Ctx) :
    ∃ v, wordEffect t i c = some { c with stack := v :: c.stack } := by
  cases i <;> simp [Instr.pops] at hi <;> simp [wordEffect, ctxPush]

/-- A binary word replaces the two top entries by one. -/
theorem wordEffect_binary {i : Instr} (hi : i.pops = 2) (t : Word) {c : Ctx}
    (hc : 2 ≤ c.stack.length) :
    ∃ c', wordEffect t i c = some c' ∧ c'.stack.length = c.stack.length - 1 := by
  obtain ⟨stack, dz, sa⟩ := c
  match stack, hc with
  | b :: a :: below, _ =>
    cases i <;> simp [Instr.pops] at hi <;> simp [wordEffect, ctxBinary, popTwo]

/-- No instruction is refused: it answers a next state or stops with a fault of its stack. -/
theorem exec_ne_refused (i : Instr) (s : State) (r : Refusal) : exec i s ≠ .refused r := by
  cases i <;>
    simp only [exec, execEnd, execT, execConst, execAnd, execOr, execXor, execAdd, execSub, execMul,
      execDivu, execModu, execShl, execShr, returnResult, pushWord, binaryWord] <;>
    split <;> simp

/-- What any instruction can do: the evaluation context changes, and nothing else. -/
theorem exec_next_frame {i : Instr} {s s' : State} (h : exec i s = .next s') :
    s' = { s with ev := s'.ev } ∧ s'.ev.phase = s.ev.phase := by
  cases i
  case endOp =>
    obtain ⟨v, below, -, rfl⟩ := returnResult_next.1 h
    exact ⟨rfl, rfl⟩
  case t | const =>
    obtain ⟨-, rfl⟩ := pushWord_next.1 h
    exact ⟨rfl, rfl⟩
  all_goals
    obtain ⟨a, b, below, -, rfl⟩ := binaryWord_next.1 h
    exact ⟨rfl, rfl⟩

end Sys2Proof.Machine
end

