-- ==== Sys2Proof/Laws/Eval.lean ====
section
/-! SUPPORT. The word-by-word evaluation against the pure one: what the well-formedness pass
guarantees at every word, and what one word adds. -/

namespace Sys2Proof.Machine

/-- From a context whose depth the pass accepts, the evaluation returns. -/
theorem evalProgram_isSome (t : Word) (is : List Instr) (c : Ctx)
    (h : checkFrom c.stack.length is = .ok ()) : ∃ r, evalProgram t is c = some r := by
  induction is generalizing c with
  | nil => simp [checkFrom] at h
  | cons i rest ih =>
    rcases pops_cases i with rfl | hi | hi
    · obtain ⟨-, hd⟩ := (checkFrom_endOp _ _).1 h
      match hs : c.stack, hd with
      | [v], _ => exact ⟨⟨v, c.dz, c.sa⟩, by simp [evalProgram, ctxReturn, hs]⟩
    · obtain ⟨v, hv⟩ := wordEffect_leaf hi t c
      obtain ⟨-, hrest⟩ := (checkFrom_leaf hi _ _).1 h
      obtain ⟨r, hr⟩ := ih { c with stack := v :: c.stack } (by simpa using hrest)
      exact ⟨r, by simp [evalProgram, ne_endOp_of_pops (by omega : i.pops ≠ 1), hv, hr]⟩
    · obtain ⟨hd, hrest⟩ := (checkFrom_binary hi _ _).1 h
      obtain ⟨c', hc', hlen⟩ := wordEffect_binary hi t hd
      obtain ⟨r, hr⟩ := ih c' (by rw [hlen]; exact hrest)
      exact ⟨r, by simp [evalProgram, ne_endOp_of_pops (by omega : i.pops ≠ 1), hc', hr]⟩

/-- A run of words, one more word at its end. -/
theorem runWords_append (t : Word) (is js : List Instr) (c : Ctx) :
    runWords t (is ++ js) c = (runWords t is c).bind (runWords t js) := by
  induction is generalizing c with
  | nil => simp [runWords]
  | cons i rest ih =>
    simp only [List.cons_append, runWords]
    cases wordEffect t i c <;> simp [ih]

/-- What the pass knows after the first words have run: it accepts the rest at the depth they
left, and the evaluation goes on from their context. -/
theorem runWords_keeps_check (t : Word) (is js : List Instr) (c c' : Ctx)
    (hc : checkFrom c.stack.length (is ++ js) = .ok ()) (hrun : runWords t is c = some c') :
    checkFrom c'.stack.length js = .ok () ∧ evalProgram t (is ++ js) c = evalProgram t js c' := by
  induction is generalizing c with
  | nil =>
    simp only [runWords, Option.some.injEq] at hrun
    subst hrun
    exact ⟨hc, rfl⟩
  | cons i rest ih =>
    simp only [runWords] at hrun
    split at hrun
    case h_2 => cases hrun
    case h_1 c₁ h₁ =>
    rw [List.cons_append] at hc
    have hne : i ≠ .endOp := by
      rintro rfl
      simp [wordEffect] at h₁
    have hstep : checkFrom c₁.stack.length (rest ++ js) = .ok () := by
      rcases pops_cases i with rfl | hi | hi
      · exact absurd rfl hne
      · obtain ⟨v, hv⟩ := wordEffect_leaf hi t c
        rw [hv] at h₁
        injection h₁ with h₁
        subst h₁
        simpa using ((checkFrom_leaf hi _ _).1 hc).2
      · obtain ⟨hd, hrest⟩ := (checkFrom_binary hi _ _).1 hc
        obtain ⟨c₂, hc₂, hlen⟩ := wordEffect_binary hi t hd
        rw [hc₂] at h₁
        injection h₁ with h₁
        subst h₁
        rw [hlen]
        exact hrest
    obtain ⟨ha, hb⟩ := ih c₁ hstep hrun
    exact ⟨ha, by simp [evalProgram, hne, h₁, hb]⟩

/-- The pass leaves no word after END. -/
theorem checkFrom_last {d : Nat} {is : List Instr} (h : checkFrom d is = .ok ()) :
    ∃ js, is = js ++ [.endOp] ∧ .endOp ∉ js := by
  induction is generalizing d with
  | nil => simp [checkFrom] at h
  | cons i rest ih =>
    rcases pops_cases i with rfl | hi | hi
    · obtain ⟨rfl, -⟩ := (checkFrom_endOp _ _).1 h
      exact ⟨[], by simp⟩
    · obtain ⟨js, rfl, hjs⟩ := ih ((checkFrom_leaf hi _ _).1 h).2
      exact ⟨i :: js, by simp, by simp [hjs, (ne_endOp_of_pops (by omega : i.pops ≠ 1)).symm]⟩
    · obtain ⟨js, rfl, hjs⟩ := ih ((checkFrom_binary hi _ _).1 h).2
      exact ⟨i :: js, by simp, by simp [hjs, (ne_endOp_of_pops (by omega : i.pops ≠ 1)).symm]⟩

/-- The word a program's descriptor holds at `k` is the encoding of its instruction there. -/
theorem getElem?_map_encode (is : List Instr) (k : Nat) :
    (is.map encode)[k]? = is[k]?.map encode := by simp

/-- One word from a context on course: the machine executes it, and the evaluator stays on
course. -/
theorem exec_keeps_course {is : List Instr} {i : Instr} {s : State} (p : Descriptor)
    (hp : p = is.map encode) (hc : checkFrom 0 is = .ok ()) (hres : s.ev.result = none)
    (hon : evalOnCourse p s.t s.ev = true) (hi : is[s.ev.k]? = some i) :
    ∃ ev', exec i s = .next { s with ev := ev' } ∧ ev'.phase = s.ev.phase ∧
      evalOnCourse p s.t ev' = true ∧
      (i ≠ .endOp → ev'.result = none ∧ ev'.k = s.ev.k + 1) ∧
      (i = .endOp → ∃ r, ev'.result = some r ∧ evalDescriptor p s.t = some r) := by
  subst hp
  obtain ⟨-, hrun⟩ : s.ev.k < is.length ∧
      runWords s.t (is.take s.ev.k) Ctx.empty = some ⟨s.ev.stack, s.ev.dz, s.ev.sa⟩ := by
    simpa [evalOnCourse, hres] using hon
  have hklt : s.ev.k < is.length := (List.getElem?_eq_some_iff.1 hi).1
  have hdrop : is.drop s.ev.k = i :: is.drop (s.ev.k + 1) := by
    rw [List.drop_eq_getElem_cons hklt, (List.getElem?_eq_some_iff.1 hi).2]
  have hsplit : is.take s.ev.k ++ is.drop s.ev.k = is := List.take_append_drop _ _
  obtain ⟨hck, hev⟩ := runWords_keeps_check s.t (is.take s.ev.k) (is.drop s.ev.k) Ctx.empty
    ⟨s.ev.stack, s.ev.dz, s.ev.sa⟩ (by rw [hsplit]; exact hc) hrun
  rw [hsplit, hdrop] at hev
  rw [hdrop] at hck
  have hnext : ∀ c', i ≠ .endOp → wordEffect s.t i ⟨s.ev.stack, s.ev.dz, s.ev.sa⟩ = some c' →
      checkFrom c'.stack.length (is.drop (s.ev.k + 1)) = .ok () →
      evalOnCourse (is.map encode) s.t { s.ev with
        stack := c'.stack, dz := c'.dz, sa := c'.sa, k := s.ev.k + 1 } = true := by
    intro c' _ hw hck'
    have hlt : s.ev.k + 1 < is.length := by
      by_contra hge
      have : is.drop (s.ev.k + 1) = [] := List.drop_eq_nil_of_le (by omega)
      rw [this] at hck'
      simp [checkFrom] at hck'
    have htake : is.take (s.ev.k + 1) = is.take s.ev.k ++ [i] := by
      rw [List.take_add_one, hi]; rfl
    simp only [evalOnCourse, hres, decodeWords_map_encode, Bool.and_eq_true, decide_eq_true_eq]
    exact ⟨hlt, by rw [htake, runWords_append, hrun]; simp [runWords, hw]⟩
  rcases pops_cases i with rfl | hpop | hpop
  · obtain ⟨-, hd⟩ := (checkFrom_endOp _ _).1 hck
    match hs : s.ev.stack, hd with
    | [v], _ =>
      have hval : evalDescriptor (is.map encode) s.t = some ⟨v, s.ev.dz, s.ev.sa⟩ := by
        simp [evalDescriptor, hev, evalProgram, ctxReturn, hs]
      refine ⟨{ s.ev with stack := [], result := some ⟨v, s.ev.dz, s.ev.sa⟩ }, ?_, rfl, ?_, ?_, ?_⟩
      · simp [exec, execEnd, returnResult, hs]
      · simp [evalOnCourse, hval]
      · intro h; exact absurd rfl h
      · intro _; exact ⟨_, rfl, hval⟩
  · have hne := ne_endOp_of_pops (by omega : i.pops ≠ 1)
    obtain ⟨v, hv⟩ := wordEffect_leaf hpop s.t ⟨s.ev.stack, s.ev.dz, s.ev.sa⟩
    obtain ⟨hroom, hck'⟩ := (checkFrom_leaf hpop _ _).1 hck
    refine ⟨_, exec_eq_wordEffect hne (fun _ => hroom) hv, rfl,
      hnext _ hne hv (by simpa using hck'), fun _ => ⟨hres, rfl⟩, fun h => absurd h hne⟩
  · have hne := ne_endOp_of_pops (by omega : i.pops ≠ 1)
    obtain ⟨hd, hck'⟩ := (checkFrom_binary hpop _ _).1 hck
    obtain ⟨c', hc', hlen⟩ :=
      wordEffect_binary hpop s.t (c := ⟨s.ev.stack, s.ev.dz, s.ev.sa⟩) hd
    refine ⟨_, exec_eq_wordEffect hne (fun h => by omega) hc', rfl,
      hnext _ hne hc' (by rw [hlen]; exact hck'), fun _ => ⟨hres, rfl⟩, fun h => absurd h hne⟩

end Sys2Proof.Machine
end

