-- ==== Sys2Proof/Laws/Step.lean ====
section
/-! SUPPORT. What the step can do, said once, and that it keeps the invariant. -/

namespace Sys2Proof.Machine

theorem elaborationRefusal_none_iff (c : Config) :
    elaborationRefusal c = none ↔ configLegal c = true := by
  unfold elaborationRefusal configLegal
  cases descriptorsLegal c <;> cases parametersLegal c <;> simp

theorem step_of_legal {s : State} (h : configLegal s.cfg = true) :
    step s = if emissionDue s then emissionStep s else .next (quietEdge s) := by
  unfold step
  rw [(elaborationRefusal_none_iff _).2 h]

theorem step_next_legal {s s' : State} (h : step s = .next s') : configLegal s.cfg = true := by
  unfold step at h
  split at h
  · cases h
  · rename_i hn
    exact (elaborationRefusal_none_iff _).1 hn

theorem catalogWf_entry {c : Catalog} (h : catalogWf c = true) (i : Fin 7) :
    descriptorWf (catalogEntry c i) = true := by
  simp only [catalogWf, Bool.and_eq_true] at h
  obtain ⟨⟨⟨⟨⟨⟨h0, h1⟩, h2⟩, h3⟩, h4⟩, h5⟩, h6⟩ := h
  fin_cases i <;> assumption

theorem catalogWf_iff (c : Catalog) :
    catalogWf c = true ↔ ∀ i, descriptorWf (catalogEntry c i) = true := by
  refine ⟨fun h => catalogWf_entry h, fun h => ?_⟩
  simp only [catalogWf, Bool.and_eq_true]
  exact ⟨⟨⟨⟨⟨⟨h 0, h 1⟩, h 2⟩, h 3⟩, h 4⟩, h 5⟩, h 6⟩

/-- No E1: every descriptor satisfies `WF`. -/
theorem descriptorsLegal_iff (c : Config) :
    descriptorsLegal c = true ↔ ∀ cat i, descriptorWf (descriptorOf c cat i) = true := by
  simp only [descriptorsLegal, Bool.and_eq_true, catalogWf_iff]
  refine ⟨fun h cat i => ?_, fun h => ⟨h .A, h .B⟩⟩
  cases cat
  · exact h.1 i
  · exact h.2 i

/-- No E2: the constraints of R8; a positive T needs a positive duration. -/
theorem parametersLegal_iff (c : Config) :
    parametersLegal c = true ↔ 1 ≤ c.sampleRate ∧ 1 ≤ tSamples c ∧ tSamples c ≤ 2 ^ 32 - 1 ∧
      (c.evalLatency + 1) * c.sampleRate ≤ c.clkHz := by
  simp only [parametersLegal, decide_eq_true_eq]
  refine ⟨fun ⟨h1, _, _, h2⟩ => ⟨h1, h2⟩, fun ⟨h1, h2⟩ => ⟨h1, ?_, ?_, h2⟩⟩ <;>
  · refine Nat.one_le_iff_ne_zero.2 fun h0 => ?_
    simp [tSamples, h0] at h2

theorem descriptorOf_wf {c : Config} (h : configLegal c = true) (cat : Cat) (i : Fin 7) :
    descriptorWf (descriptorOf c cat i) = true := by
  simp only [configLegal, descriptorsLegal, Bool.and_eq_true] at h
  cases cat
  · exact catalogWf_entry h.1.1 i
  · exact catalogWf_entry h.1.2 i

/-- The numeric conditions of a legal configuration. -/
theorem legal_parameters {c : Config} (h : configLegal c = true) :
    1 ≤ c.sampleRate ∧ 1 ≤ tSamples c ∧ tSamples c ≤ 2 ^ 32 - 1 ∧
      (c.evalLatency + 1) * c.sampleRate ≤ c.clkHz := by
  simp only [configLegal, parametersLegal, Bool.and_eq_true, decide_eq_true_eq] at h
  obtain ⟨-, h1, -, -, h2, h3, h4⟩ := h
  exact ⟨h1, h2, h3, h4⟩

/-- The clock bound, in the form the pacing lemmas use. -/
theorem legal_clock {c : Config} (h : configLegal c = true) :
    (c.evalLatency : Int) * (c.sampleRate : Int) + (c.sampleRate : Int) ≤ (c.clkHz : Int) := by
  have := (legal_parameters h).2.2.2
  zify at this
  linarith [this]

theorem evalDescriptor_isSome {p : Descriptor} (h : descriptorWf p = true) (t : Word) :
    ∃ r, evalDescriptor p t = some r := by
  obtain ⟨is, rfl, -, hc⟩ := (descriptorWf_iff p).1 h
  obtain ⟨r, hr⟩ := evalProgram_isSome t is Ctx.empty hc
  exact ⟨r, by simp [evalDescriptor, hr]⟩

theorem combine_eq {c : Config} {ia ib : Fin 7} {t : Word} {ra rb : Result}
    (ha : evalDescriptor (descriptorOf c .A ia) t = some ra)
    (hb : evalDescriptor (descriptorOf c .B ib) t = some rb) :
    combine c ia ib t = some (combineResults ra rb) := by
  simp [combine, ha, hb]

theorem combine_isSome {c : Config} (h : configLegal c = true) (ia ib : Fin 7) (t : Word) :
    ∃ r, combine c ia ib t = some r := by
  obtain ⟨ra, ha⟩ := evalDescriptor_isSome (descriptorOf_wf h .A ia) t
  obtain ⟨rb, hb⟩ := evalDescriptor_isSome (descriptorOf_wf h .B ib) t
  exact ⟨_, combine_eq ha hb⟩

theorem emissionDue_iff (s : State) :
    emissionDue s = true ↔ (portsNow s).rst = false ∧ s.st = .render ∧
      s.t.toNat < tSamples s.cfg ∧ s.lat = 0 ∧ 0 ≤ s.pace := by
  simp [emissionDue]

/-- Whether a sample is due does not depend on the evaluator. -/
@[simp] theorem emissionDue_withEv (s : State) (e : Evaluator) :
    emissionDue { s with ev := e } = emissionDue s := rfl

/-- What an edge that emits nothing can do, by cases. -/
theorem quietEdge_cases (s : State) :
    ((portsNow s).rst = true ∧ quietEdge s = resetEdge (beginEdge s)) ∨
    ((portsNow s).rst = false ∧ s.st = .idle ∧ (portsNow s).idValid = false ∧
      quietEdge s = beginEdge s) ∨
    ((portsNow s).rst = false ∧ s.st = .idle ∧ (portsNow s).idValid = true ∧
      (portsNow s).idLast = false ∧ quietEdge s = acceptByte (portsNow s).idData (beginEdge s)) ∨
    ((portsNow s).rst = false ∧ s.st = .idle ∧ (portsNow s).idValid = true ∧
      (portsNow s).idLast = true ∧ quietEdge s = startSession (portsNow s).idData (beginEdge s)) ∨
    ((portsNow s).rst = false ∧ s.st = .render ∧ s.t.toNat < tSamples s.cfg ∧
      quietEdge s = waitEdge (beginEdge s)) ∨
    ((portsNow s).rst = false ∧ s.st = .render ∧ tSamples s.cfg ≤ s.t.toNat ∧
      quietEdge s = finalEdge (beginEdge s)) ∨
    ((portsNow s).rst = false ∧ s.st = .done ∧ quietEdge s = doneEdge (beginEdge s)) := by
  unfold quietEdge
  cases hr : (portsNow s).rst
  · cases hst : s.st
    · cases hv : (portsNow s).idValid
      · simp [idleEdge, hv]
      · cases hl : (portsNow s).idLast <;> simp [idleEdge, hv, hl]
    · by_cases ht : s.t.toNat < tSamples s.cfg
      · simp [ht]
      · simp [ht, Nat.not_lt.1 ht]
    · simp
  · simp

/-- No edge changes the configuration, uses up more than one cycle's port values, or leaves an
evaluation behind. -/
theorem quietEdge_frame (s : State) :
    (quietEdge s).cfg = s.cfg ∧ (quietEdge s).inputs = s.inputs.tail ∧
      (quietEdge s).ev = Evaluator.rest ∧ (quietEdge s).sv = false := by
  obtain ⟨-, e⟩ | ⟨-, -, -, e⟩ | ⟨-, -, -, -, e⟩ | ⟨-, -, -, -, e⟩ | ⟨-, -, -, e⟩ | ⟨-, -, -, e⟩ |
    ⟨-, -, e⟩ := quietEdge_cases s <;> rw [e] <;> simp

@[simp] theorem quietEdge_cfg (s : State) : (quietEdge s).cfg = s.cfg := (quietEdge_frame s).1
@[simp] theorem quietEdge_inputs (s : State) : (quietEdge s).inputs = s.inputs.tail :=
  (quietEdge_frame s).2.1
@[simp] theorem quietEdge_ev (s : State) : (quietEdge s).ev = Evaluator.rest :=
  (quietEdge_frame s).2.2.1
@[simp] theorem quietEdge_sv (s : State) : (quietEdge s).sv = false := (quietEdge_frame s).2.2.2
@[simp] theorem emissionEdge_cfg (r : Result) (s : State) : (emissionEdge r s).cfg = s.cfg := rfl
@[simp] theorem emissionEdge_inputs (r : Result) (s : State) :
    (emissionEdge r s).inputs = s.inputs.tail := rfl
@[simp] theorem emissionEdge_ev (r : Result) (s : State) :
    (emissionEdge r s).ev = Evaluator.rest := rfl

theorem renderOk_iff (s : State) :
    renderOk s = true ↔ s.t.toNat ≤ tSamples s.cfg ∧ s.lat ≤ s.cfg.evalLatency ∧
      -(s.cfg.clkHz : Int) ≤ s.pace ∧ s.pace ≤ (s.cfg.sampleRate : Int) - 1 ∧
      (s.t.toNat < tSamples s.cfg →
        s.pace + (s.lat : Int) * (s.cfg.sampleRate : Int) ≤ (s.cfg.sampleRate : Int) - 1) ∧
      (s.sv = true → s.si.toNat + 1 = s.t.toNat) := decide_eq_true_iff

/-- R203: while the evaluator is busy the deadline has not come. -/
theorem renderOk_noUnderrun {s : State} (h : renderOk s = true) (ht : s.t.toNat < tSamples s.cfg)
    (hl : 0 < s.lat) : s.pace < 0 := by
  obtain ⟨-, -, -, -, hb, -⟩ := (renderOk_iff s).1 h
  have hb := hb ht
  have h1 : (1 : Int) ≤ (s.lat : Int) := by exact_mod_cast hl
  have h2 : (0 : Int) ≤ (s.cfg.sampleRate : Int) := Int.natCast_nonneg _
  nlinarith

theorem sessionOk_render {s : State} (h : sessionOk s = true) (hst : s.st = .render) :
    renderOk s = true ∧ noPartialIdentifier s = true := by
  simpa [sessionOk, hst] using h

theorem wrap32_toNat (n : Nat) : (wrap32 n).toNat = n % 2 ^ 32 := BitVec.toNat_ofNat ..

/-- The index after an emission, in a legal configuration. -/
theorem nextIndex_toNat {s : State} (hleg : configLegal s.cfg = true)
    (ht : s.t.toNat < tSamples s.cfg) : (wrap32 (s.t.toNat + 1)).toNat = s.t.toNat + 1 := by
  have := (legal_parameters hleg).2.2.1
  rw [wrap32_toNat]
  omega

/-- A waiting edge keeps the session part of the invariant. -/
theorem waitEdge_renderOk {s : State} (h : renderOk s = true)
    (ht : s.t.toNat < tSamples s.cfg) (hnd : 0 < s.lat ∨ s.pace < 0) (hsv : s.sv = false) :
    renderOk (waitEdge s) = true := by
  have hun := renderOk_noUnderrun h ht
  obtain ⟨h1, h2, h3, h4, h5, -⟩ := (renderOk_iff s).1 h
  have h5 := h5 ht
  have hR : (0 : Int) ≤ (s.cfg.sampleRate : Int) := Int.natCast_nonneg _
  have hneg : s.pace < 0 := hnd.elim hun id
  rw [renderOk_iff]
  simp only [waitEdge_cfg, waitEdge_t, waitEdge_lat, waitEdge_pace, waitEdge_sv, waitEdge_si, hsv]
  refine ⟨h1, ?_, by linarith, by linarith, fun _ => ?_, by simp⟩
  · split <;> omega
  · split
    · rename_i hl
      have : ((s.lat - 1 : Nat) : Int) = (s.lat : Int) - 1 := by omega
      rw [this]
      linarith [sub_mul (s.lat : Int) 1 (s.cfg.sampleRate : Int)]
    · rename_i hl
      have : s.lat = 0 := by omega
      rw [this]
      simp
      omega

/-- An emission edge keeps the session part of the invariant. -/
theorem emissionEdge_sessionOk {s : State} (r : Result) (hleg : configLegal s.cfg = true)
    (h : sessionOk s = true) (hdue : emissionDue s = true) :
    sessionOk (emissionEdge r s) = true := by
  obtain ⟨-, hst, ht, -, hp⟩ := (emissionDue_iff s).1 hdue
  obtain ⟨hr, hn⟩ := sessionOk_render h hst
  obtain ⟨-, -, -, h4, -, -⟩ := (renderOk_iff s).1 hr
  have hclk := legal_clock hleg
  have hR : (0 : Int) ≤ (s.cfg.sampleRate : Int) := Int.natCast_nonneg _
  have hLR : (0 : Int) ≤ (s.cfg.evalLatency : Int) * (s.cfg.sampleRate : Int) := by positivity
  have hnext := nextIndex_toNat hleg ht
  have hst' : (emissionEdge r s).st = .render := hst
  simp only [sessionOk, hst', Bool.and_eq_true]
  refine ⟨(renderOk_iff _).2 ?_, hn⟩
  simp only [emissionEdge, emitSample_cfg, emitSample_t, emitSample_lat, emitSample_pace,
    emitSample_sv, emitSample_si, beginEdge_cfg, beginEdge_t, beginEdge_pace, hnext]
  exact ⟨ht, le_refl _, by linarith, by linarith, fun _ => by linarith, fun _ => trivial⟩

/-- An edge that emits nothing keeps the session part of the invariant. -/
theorem quietEdge_sessionOk {s : State} (hleg : configLegal s.cfg = true)
    (h : sessionOk s = true) (hdue : emissionDue s = false) : sessionOk (quietEdge s) = true := by
  have hclk := legal_clock hleg
  have hR1 : (1 : Int) ≤ (s.cfg.sampleRate : Int) := by exact_mod_cast (legal_parameters hleg).1
  have hLR : (0 : Int) ≤ (s.cfg.evalLatency : Int) * (s.cfg.sampleRate : Int) := by positivity
  have hF : (0 : Int) ≤ (s.cfg.clkHz : Int) := Int.natCast_nonneg _
  obtain ⟨-, e⟩ | ⟨-, hst, -, e⟩ | ⟨-, hst, -, -, e⟩ | ⟨-, hst, -, -, e⟩ | ⟨hr, hst, ht, e⟩ |
    ⟨-, hst, ht, e⟩ | ⟨-, hst, e⟩ := quietEdge_cases s
  · rw [e]
    simp [sessionOk, idleOk]
  · rw [e]
    simp_all [sessionOk, idleOk]
  · rw [e]
    simp_all [sessionOk, idleOk]
  · rw [e]
    simp only [sessionOk, startSession_st, Bool.and_eq_true]
    refine ⟨(renderOk_iff _).2 ?_, by simp [noPartialIdentifier]⟩
    simp only [startSession_cfg, startSession_t, startSession_lat, startSession_pace,
      startSession_sv, beginEdge_cfg, beginEdge_sv]
    exact ⟨by simp, le_refl _, by linarith, by linarith, fun _ => by linarith, by simp⟩
  · obtain ⟨hrender, hn⟩ := sessionOk_render h hst
    have hnd : 0 < s.lat ∨ s.pace < 0 := by
      by_contra hc
      push Not at hc
      have : emissionDue s = true := (emissionDue_iff s).2 ⟨hr, hst, ht, by omega, hc.2⟩
      simp [this] at hdue
    have hb : renderOk (beginEdge s) = true := by
      obtain ⟨h1, h2, h3, h4, h5, -⟩ := (renderOk_iff s).1 hrender
      exact (renderOk_iff _).2 ⟨h1, h2, h3, h4, h5, by simp⟩
    have hst' : (waitEdge (beginEdge s)).st = .render := hst
    rw [e]
    simp only [sessionOk, hst', Bool.and_eq_true]
    exact ⟨waitEdge_renderOk hb ht hnd rfl, hn⟩
  · obtain ⟨hrender, hn⟩ := sessionOk_render h hst
    obtain ⟨h1, h2, h3, h4, -, -⟩ := (renderOk_iff s).1 hrender
    have hn' : noPartialIdentifier (finalEdge (beginEdge s)) = true := by
      simpa [noPartialIdentifier] using hn
    rw [e]
    by_cases hp : 0 ≤ s.pace
    · have hst' : (finalEdge (beginEdge s)).st = .done := by simp [finalEdge, hp]
      simp only [sessionOk, hst', Bool.and_eq_true]
      exact ⟨by simp [doneOk]; omega, hn'⟩
    · have hst' : (finalEdge (beginEdge s)).st = .render := by simp [finalEdge, hp, hst]
      have hp' : (finalEdge (beginEdge s)).pace = s.pace + (s.cfg.sampleRate : Int) := by
        simp [finalEdge, hp]
      simp only [sessionOk, hst', Bool.and_eq_true]
      refine ⟨(renderOk_iff _).2 ?_, hn'⟩
      simp only [finalEdge_cfg, finalEdge_t, finalEdge_lat, finalEdge_sv, hp', beginEdge_cfg,
        beginEdge_t, beginEdge_lat, beginEdge_sv]
      exact ⟨h1, h2, by linarith, by omega, fun hlt => by omega, by simp⟩
  · rw [e]
    simp [sessionOk, idleOk]

theorem invariant_iff (s : State) :
    invariant s = true ↔
      configLegal s.cfg = true ∧ sessionOk s = true ∧ evaluatorOnCourse s = true := by
  simp [invariant, and_assoc]

theorem evaluatorOnCourse_rest {s : State} (h : s.ev = Evaluator.rest) :
    evaluatorOnCourse s = true := by
  simp [evaluatorOnCourse, h, Evaluator.rest, Evaluator.start]

/-- An evaluation that begins is on course. -/
theorem evalOnCourse_start {p : Descriptor} (hp : descriptorWf p = true) (t : Word) (ph : Phase) :
    evalOnCourse p t (Evaluator.start ph) = true := by
  obtain ⟨is, rfl, -, hc⟩ := (descriptorWf_iff p).1 hp
  obtain ⟨js, hjs, -⟩ := checkFrom_last hc
  have hpos : 0 < is.length := by simp [hjs]
  simp only [evalOnCourse, Evaluator.start, decodeWords_map_encode, List.take_zero]
  simp [runWords, Ctx.empty, hpos]

/-- The word step of formula A or B, from a state on course. -/
theorem runWord_keeps_course {s : State} {cat : Cat} (hleg : configLegal s.cfg = true)
    (hres : s.ev.result = none)
    (hon : evalOnCourse (descriptorOf s.cfg cat (indexFor s cat)) s.t s.ev = true) :
    ∃ ev', runWord cat s = .next { s with ev := ev' } ∧ ev'.phase = s.ev.phase ∧
      evalOnCourse (descriptorOf s.cfg cat (indexFor s cat)) s.t ev' = true ∧
      (s.ev.k + 1 < (descriptorOf s.cfg cat (indexFor s cat)).length →
        ev'.result = none ∧ ev'.k = s.ev.k + 1) ∧
      (s.ev.k + 1 = (descriptorOf s.cfg cat (indexFor s cat)).length →
        ∃ r, ev'.result = some r ∧
          evalDescriptor (descriptorOf s.cfg cat (indexFor s cat)) s.t = some r) := by
  obtain ⟨is, hp, -, hc⟩ := (descriptorWf_iff _).1 (descriptorOf_wf hleg cat (indexFor s cat))
  have hk : s.ev.k < is.length := by
    have := hon
    simp only [evalOnCourse, hres, hp, decodeWords_map_encode, Bool.and_eq_true,
      decide_eq_true_eq] at this
    exact this.1
  have hi : is[s.ev.k]? = some is[s.ev.k] := List.getElem?_eq_getElem hk
  obtain ⟨ev', hex, hph, hon', hmid, hend⟩ := exec_keeps_course _ hp hc hres hon hi
  refine ⟨ev', ?_, hph, hon', fun hlt => hmid ?_, fun heq => hend ?_⟩
  · have hfetch : fetchWord cat s = some (encode is[s.ev.k]) := by
      simp [fetchWord, romRead, hp, hi]
    simp only [runWord, hfetch, (decode_ok_iff_fields _ _).2 ⟨opField_encode _, immField_encode _⟩]
    exact hex
  all_goals
    obtain ⟨js, hjs, hnot⟩ := checkFrom_last hc
    have hlen : (descriptorOf s.cfg cat (indexFor s cat)).length = js.length + 1 := by
      rw [hp, hjs]
      simp
  · have hin : is[s.ev.k] ∈ js := by
      have : is[s.ev.k] = js[s.ev.k]'(by omega) := by
        simp only [hjs]
        exact List.getElem_append_left (by omega)
      exact this ▸ List.getElem_mem _
    intro habs
    exact hnot (habs ▸ hin)
  · have hkj : s.ev.k = js.length := by omega
    simp [hjs, hkj]

/-- What a step can do from a state that meets the invariant, by cases: an edge that emits nothing,
the begin of an evaluation, a word, or the emission edge with the samples of `Combine`. -/
theorem step_cases {s : State} (h : invariant s = true) :
    (emissionDue s = false ∧ step s = .next (quietEdge s)) ∨
    (emissionDue s = true ∧ ∃ ev', step s = .next { s with ev := ev' } ∧
      evaluatorOnCourse { s with ev := ev' } = true) ∨
    (emissionDue s = true ∧ ∃ r, combine s.cfg s.idxA s.idxB s.t = some r ∧
      step s = .next (emissionEdge r s)) := by
  obtain ⟨hleg, -, hev⟩ := (invariant_iff s).1 h
  rw [step_of_legal hleg]
  cases hdue : emissionDue s
  · left; simp
  right
  simp only [if_true, emissionStep, true_and]
  unfold evaluatorOnCourse at hev
  cases hph : s.ev.phase with
  | rest =>
    left
    refine ⟨_, rfl, ?_⟩
    simp only [evaluatorOnCourse, Evaluator.start, emissionDue_withEv, hdue, Bool.true_and]
    exact evalOnCourse_start (descriptorOf_wf hleg .A s.idxA) s.t .formulaA
  | formulaA =>
    simp only [hph, hdue, Bool.true_and] at hev
    cases hres : s.ev.result with
    | none =>
      left
      obtain ⟨ev', hrun, hph', hon', -, -⟩ :=
        runWord_keeps_course (cat := .A) hleg hres (by simpa [indexFor] using hev)
      refine ⟨ev', hrun, ?_⟩
      simp only [evaluatorOnCourse, hph', hph, emissionDue_withEv, hdue, Bool.true_and]
      exact hon'
    | some ra =>
      left
      refine ⟨_, rfl, ?_⟩
      simp only [evaluatorOnCourse, Evaluator.start, emissionDue_withEv, hdue, Bool.true_and,
        Bool.and_eq_true, decide_eq_true_eq]
      refine ⟨?_, evalOnCourse_start (descriptorOf_wf hleg .B s.idxB) s.t (.formulaB ra)⟩
      simpa [evalOnCourse, hres] using hev
  | formulaB ra =>
    simp only [hph, hdue, Bool.true_and, Bool.and_eq_true, decide_eq_true_eq] at hev
    cases hres : s.ev.result with
    | none =>
      left
      obtain ⟨ev', hrun, hph', hon', -, -⟩ :=
        runWord_keeps_course (cat := .B) hleg hres (by simpa [indexFor] using hev.2)
      refine ⟨ev', hrun, ?_⟩
      simp only [evaluatorOnCourse, hph', hph, emissionDue_withEv, hdue, Bool.true_and,
        Bool.and_eq_true, decide_eq_true_eq]
      exact ⟨hev.1, hon'⟩
    | some rb =>
      right
      refine ⟨_, combine_eq hev.1 ?_, rfl⟩
      simpa [evalOnCourse, hres] using hev.2

end Sys2Proof.Machine
end

