-- ==== Sys2Proof/Laws/Clock.lean ====
section
/-! SUPPORT. What one step and one clock edge can do from any state, and runs of steps and of
edges. -/

namespace Sys2Proof.Machine

/-- What a step can do from any state: an edge that emits nothing; or, in a cycle that emits, a
change of the evaluator alone or the emission edge. -/
theorem step_next_cases {s s' : State} (h : step s = .next s') :
    (emissionDue s = false ∧ s' = quietEdge s) ∨
    (emissionDue s = true ∧ ((∃ ev, s' = { s with ev := ev }) ∨ ∃ r, s' = emissionEdge r s)) := by
  have hword : ∀ cat, runWord cat s = .next s' → ∃ ev, s' = { s with ev := ev } := by
    intro cat hw
    unfold runWord at hw
    split at hw
    · cases hw
    · split at hw
      · cases hw
      · exact ⟨_, (exec_next_frame hw).1⟩
  rw [step_of_legal (step_next_legal h)] at h
  split at h
  · rename_i hd
    refine .inr ⟨hd, ?_⟩
    unfold emissionStep at h
    split at h
    · injection h with h
      exact .inl ⟨_, h.symm⟩
    all_goals
      split at h
      · exact .inl (hword _ h)
      · injection h with h
        first
          | exact .inl ⟨_, h.symm⟩
          | exact .inr ⟨_, h.symm⟩
  · rename_i hd
    injection h with h
    exact .inl ⟨by simpa using hd, h.symm⟩

theorem step_quiet {s : State} (hleg : configLegal s.cfg = true) (h : emissionDue s = false) :
    step s = .next (quietEdge s) := by
  rw [step_of_legal hleg, h]
  simp

theorem emissionDue_of_rst {s : State} (h : (portsNow s).rst = true) : emissionDue s = false := by
  simp [emissionDue, h]

theorem emissionDue_of_st {s : State} (h : s.st ≠ .render) : emissionDue s = false := by
  simp [emissionDue, h]

theorem clockStep_quiet {s : State} (h : emissionDue s = false) :
    clockStep s = some (quietEdge s) := by
  simp [clockStep, h]

theorem clockStep_due {s : State} {r : Result} (h : emissionDue s = true)
    (hr : combine s.cfg s.idxA s.idxB s.t = some r) : clockStep s = some (emissionEdge r s) := by
  simp [clockStep, h, hr]

/-- What a clock edge can do from any state. -/
theorem clockStep_cases {s s' : State} (h : clockStep s = some s') :
    (emissionDue s = false ∧ s' = quietEdge s) ∨
    (emissionDue s = true ∧ ∃ r, combine s.cfg s.idxA s.idxB s.t = some r ∧
      s' = emissionEdge r s) := by
  unfold clockStep at h
  split at h
  · rename_i hd
    split at h
    · rename_i r hr
      injection h with h
      exact .inr ⟨hd, r, hr, h.symm⟩
    · cases h
  · rename_i hd
    injection h with h
    exact .inl ⟨by simpa using hd, h.symm⟩

theorem stepRun_succ {s s' : State} (n : Nat) (h : step s = .next s') :
    stepRun (n + 1) s = stepRun n s' := by
  simp only [stepRun, h]

theorem stepRun_add (m n : Nat) {s s' : State} (h : stepRun m s = .next s') :
    stepRun (m + n) s = stepRun n s' := by
  induction m generalizing s with
  | zero =>
    cases h
    rw [Nat.zero_add]
  | succ m ih =>
    rw [show m + 1 + n = m + n + 1 by omega]
    rw [stepRun] at h
    split at h
    · rename_i s1 h1
      rw [stepRun_succ _ h1]
      exact ih h
    · cases h
    · cases h

theorem clockRun_succ {s s' : State} (n : Nat) (h : clockStep s = some s') :
    clockRun (n + 1) s = clockRun n s' := by
  simp only [clockRun, h]

theorem clockRun_add (m n : Nat) {s s' : State} (h : clockRun m s = some s') :
    clockRun (m + n) s = clockRun n s' := by
  induction m generalizing s with
  | zero =>
    cases h
    rw [Nat.zero_add]
  | succ m ih =>
    rw [show m + 1 + n = m + n + 1 by omega]
    rw [clockRun] at h
    split at h
    · rename_i s1 h1
      rw [clockRun_succ _ h1]
      exact ih h
    · cases h

theorem length_pos_of_wf {p : Descriptor} (h : descriptorWf p = true) :
    ∃ n, p.length = n + 1 := by
  obtain ⟨is, rfl, -, hc⟩ := (descriptorWf_iff p).1 h
  obtain ⟨js, rfl, -⟩ := checkFrom_last hc
  exact ⟨js.length, by simp⟩

/-- The remaining words of formula A or B run, one step a word, to the value of `Eval`. -/
theorem stepRun_words (cat : Cat) (ph : Phase)
    (hph : (ph = .formulaA ∧ cat = .A) ∨ ((∃ ra, ph = .formulaB ra) ∧ cat = .B)) (n : Nat)
    (s : State) (hleg : configLegal s.cfg = true) (hdue : emissionDue s = true)
    (hp : s.ev.phase = ph) (hres : s.ev.result = none)
    (hon : evalOnCourse (descriptorOf s.cfg cat (indexFor s cat)) s.t s.ev = true)
    (hk : s.ev.k + n + 1 = (descriptorOf s.cfg cat (indexFor s cat)).length) :
    ∃ ev' r, stepRun (n + 1) s = .next { s with ev := ev' } ∧ ev'.phase = ph ∧
      ev'.result = some r ∧
      evalDescriptor (descriptorOf s.cfg cat (indexFor s cat)) s.t = some r := by
  have hstep : ∀ s : State, configLegal s.cfg = true → emissionDue s = true → s.ev.phase = ph →
      s.ev.result = none → step s = runWord cat s := by
    intro s hleg hdue hp hres
    rw [step_of_legal hleg, hdue]
    simp only [if_true, emissionStep, hp]
    rcases hph with ⟨rfl, rfl⟩ | ⟨⟨ra, rfl⟩, rfl⟩ <;> simp [hres]
  induction n generalizing s with
  | zero =>
    obtain ⟨ev', hrun, hph', -, -, hend⟩ := runWord_keeps_course hleg hres hon
    obtain ⟨r, hr, hev⟩ := hend (by omega)
    refine ⟨ev', r, ?_, hph'.trans hp, hr, hev⟩
    rw [stepRun_succ 0 ((hstep s hleg hdue hp hres).trans hrun)]
    rfl
  | succ n ih =>
    obtain ⟨ev', hrun, hph', hon', hmid, -⟩ := runWord_keeps_course hleg hres hon
    obtain ⟨h1, h2⟩ := hmid (by omega)
    have hk' : ev'.k + n + 1 = (descriptorOf s.cfg cat (indexFor s cat)).length := by omega
    obtain ⟨ev'', r, h3, h4, h5, h6⟩ :=
      ih { s with ev := ev' } hleg hdue (hph'.trans hp) h1 hon' hk'
    refine ⟨ev'', r, ?_, h4, h5, h6⟩
    rw [stepRun_succ (n + 1) ((hstep s hleg hdue hp hres).trans hrun)]
    exact h3

theorem addResidue_highNibble (acc : Fin 7) (x : Byte) :
    addResidue acc (highNibble x) = Fin.ofNat 7 (acc.val + x.toNat / 16) := by
  have := x.isLt
  apply Fin.ext
  simp [addResidue, highNibble, Nat.shiftRight_eq_div_pow]
  omega

theorem addResidue_lowNibble (acc : Fin 7) (x : Byte) :
    addResidue acc (lowNibble x) = Fin.ofNat 7 (acc.val + x.toNat % 16) := by
  apply Fin.ext
  simp [addResidue, lowNibble]

theorem nibbleSums (id : List Byte) :
    evenSum (nibbles id) = (id.map fun x => x.toNat / 16).sum ∧
      oddSum (nibbles id) = (id.map fun x => x.toNat % 16).sum := by
  induction id with
  | nil => simp [nibbles, evenSum, oddSum]
  | cons x rest ih =>
    have := x.isLt
    simp only [nibbles, evenSum, oddSum, ih.1, ih.2, List.map_cons, List.sum_cons, highNibble,
      lowNibble, BitVec.extractLsb'_toNat, Nat.shiftRight_eq_div_pow]
    omega

/-- A legal configuration can be made of any well-formed descriptor. -/
theorem configLegal_uniform {p : Descriptor} (h : descriptorWf p = true) :
    configLegal (uniformConfig p) = true := by
  simp [configLegal, descriptorsLegal, parametersLegal, uniformConfig, uniformCatalog, catalogWf, h,
    tSamples]

end Sys2Proof.Machine
end

