-- ==== Sys2Proof/Laws/PerInstr.lean ====
section
/-! SUPPORT. Properties of every instruction as syntax, one lemma a constructor. -/

/-- The word of a table row carries its row's opcode, and an immediate only in CONST
(30_encoding.md R72, R74). -/
def Sys2Proof.Laws.WordFields.Statement (i : Sys2Proof.Instr) : Prop :=
  Sys2Proof.opField (Sys2Proof.encode i) = Sys2Proof.opcodeOf i ∧
    (Sys2Proof.opcodeOf i ≠ 0x02 → Sys2Proof.immField (Sys2Proof.encode i) = 0)

namespace Sys2Proof.Laws.WordFields

theorem endOp : Statement .endOp := ⟨opField_encode _, fun _ => immField_encode _⟩
theorem t : Statement .t := ⟨opField_encode _, fun _ => immField_encode _⟩
theorem const (imm : BitVec 24) : Statement (.const imm) :=
  ⟨opField_encode _, fun h => absurd rfl h⟩
theorem and : Statement .and := ⟨opField_encode _, fun _ => immField_encode _⟩
theorem or : Statement .or := ⟨opField_encode _, fun _ => immField_encode _⟩
theorem xor : Statement .xor := ⟨opField_encode _, fun _ => immField_encode _⟩
theorem add : Statement .add := ⟨opField_encode _, fun _ => immField_encode _⟩
theorem sub : Statement .sub := ⟨opField_encode _, fun _ => immField_encode _⟩
theorem mul : Statement .mul := ⟨opField_encode _, fun _ => immField_encode _⟩
theorem divu : Statement .divu := ⟨opField_encode _, fun _ => immField_encode _⟩
theorem modu : Statement .modu := ⟨opField_encode _, fun _ => immField_encode _⟩
theorem shl : Statement .shl := ⟨opField_encode _, fun _ => immField_encode _⟩
theorem shr : Statement .shr := ⟨opField_encode _, fun _ => immField_encode _⟩

end Sys2Proof.Laws.WordFields
end

