-- ==== Sys2Proof/Laws/Session.lean ====
section
/-! SUPPORT. The pacing of a session: the arithmetic of the emission cycles, and what holds in
every render cycle of a session that no reset cuts short. -/

namespace Sys2Proof.Machine

theorem le_ceilDiv_mul (n d : Nat) (h : 0 < d) : n ≤ ceilDiv n d * d := by
  have h1 := Nat.div_add_mod (n + d - 1) d
  have h2 := Nat.mod_lt (n + d - 1) h
  unfold ceilDiv
  rw [Nat.mul_comm d] at h1
  omega

theorem ceilDiv_mul_lt (n d : Nat) (h : 0 < d) : ceilDiv n d * d < n + d := by
  have := Nat.div_mul_le_self (n + d - 1) d
  unfold ceilDiv
  omega

/-- Sample `k`'s deadline has been reached in render cycle `r`. -/
theorem emissionCycle_le_iff (c : Config) (hR : 1 ≤ c.sampleRate) (k r : Nat) :
    emissionCycle c k ≤ r ↔
      (k : Int) * (c.clkHz : Int) ≤ ((r : Int) - (c.evalLatency : Int)) * (c.sampleRate : Int) := by
  have h1 := le_ceilDiv_mul (k * c.clkHz) c.sampleRate hR
  have h2 := ceilDiv_mul_lt (k * c.clkHz) c.sampleRate hR
  unfold emissionCycle
  set q := ceilDiv (k * c.clkHz) c.sampleRate
  have h1' : (k : Int) * c.clkHz ≤ q * c.sampleRate := by exact_mod_cast h1
  have h2' : (q : Int) * c.sampleRate < k * c.clkHz + c.sampleRate := by exact_mod_cast h2
  have hR' : (1 : Int) ≤ c.sampleRate := by exact_mod_cast hR
  constructor
  · intro h
    have : (q : Int) ≤ (r : Int) - c.evalLatency := by omega
    nlinarith
  · intro h
    by_contra hc
    have : (r : Int) - c.evalLatency ≤ (q : Int) - 1 := by omega
    nlinarith

/-- Later samples have later emission cycles. -/
theorem emissionCycle_strictMono {c : Config} (hleg : configLegal c = true) {j k : Nat}
    (h : j < k) : emissionCycle c j < emissionCycle c k := by
  have hR := (legal_parameters hleg).1
  have hclk := legal_clock hleg
  by_contra hc
  have e1 := (emissionCycle_le_iff c hR k (emissionCycle c j)).1 (not_lt.1 hc)
  have h2 := ceilDiv_mul_lt (j * c.clkHz) c.sampleRate hR
  have h2' : (ceilDiv (j * c.clkHz) c.sampleRate : Int) * c.sampleRate <
      j * c.clkHz + c.sampleRate := by exact_mod_cast h2
  have e2 : ((emissionCycle c j : Nat) : Int) - c.evalLatency =
      ceilDiv (j * c.clkHz) c.sampleRate := by
    unfold emissionCycle
    push_cast
    ring
  rw [e2] at e1
  have hjk : (j : Int) + 1 ≤ k := by exact_mod_cast h
  have hF : (0 : Int) ≤ c.clkHz := by positivity
  have hLR : (0 : Int) ≤ (c.evalLatency : Int) * (c.sampleRate : Int) := by positivity
  nlinarith

/-- What holds in render cycle `r` of the session that starts in `s₀`. -/
structure InSession (s₀ : State) (r : Nat) (s : State) : Prop where
  cfg : s.cfg = s₀.cfg
  idxA : s.idxA = s₀.idxA
  idxB : s.idxB = s₀.idxB
  st : s.st = .render
  ev : s.ev = Evaluator.rest
  inputs : s.inputs = s₀.inputs.drop r
  pace : s.pace = ((r : Int) - (s₀.cfg.evalLatency : Int)) * (s₀.cfg.sampleRate : Int) -
    (s.t.toNat : Int) * (s₀.cfg.clkHz : Int)
  ok : renderOk s = true
  low : 1 ≤ s.t.toNat → (s₀.cfg.sampleRate : Int) - (s₀.cfg.clkHz : Int) ≤ s.pace

variable {s₀ s : State} {r : Nat}

theorem inSession_start (hleg : configLegal s₀.cfg = true) (h : sessionStarted s₀ = true) :
    InSession s₀ 0 s₀ := by
  simp only [sessionStarted, decide_eq_true_eq] at h
  obtain ⟨h1, h2, h3, h4, h5, h6⟩ := h
  have hclk := legal_clock hleg
  have hR : (1 : Int) ≤ (s₀.cfg.sampleRate : Int) := by exact_mod_cast (legal_parameters hleg).1
  have hLR : (0 : Int) ≤ (s₀.cfg.evalLatency : Int) * (s₀.cfg.sampleRate : Int) := by positivity
  refine ⟨rfl, rfl, rfl, h1, h6, by simp, by rw [h3, h2]; simp, ?_, by rw [h2]; simp⟩
  rw [renderOk_iff, h2, h3, h4, h5]
  exact ⟨by simp, le_refl _, by linarith, by linarith, fun _ => by linarith, by simp⟩

/-- The deadline of the next sample, read off `pace`. -/
theorem inSession_pace_iff (hleg : configLegal s₀.cfg = true) (h : InSession s₀ r s) :
    0 ≤ s.pace ↔ emissionCycle s₀.cfg s.t.toNat ≤ r := by
  rw [emissionCycle_le_iff _ (legal_parameters hleg).1, h.pace]
  omega

/-- Which samples have been emitted before render cycle `r`. -/
theorem inSession_emitted_iff (hleg : configLegal s₀.cfg = true) (h : InSession s₀ r s) (k : Nat) :
    k < s.t.toNat ↔ k < tSamples s₀.cfg ∧ emissionCycle s₀.cfg k < r := by
  have hR1 := (legal_parameters hleg).1
  obtain ⟨h1, -, -, h4, -, -⟩ := (renderOk_iff s).1 h.ok
  rw [h.cfg] at h1 h4
  have hF : (0 : Int) ≤ s₀.cfg.clkHz := by positivity
  have hd := emissionCycle_le_iff s₀.cfg hR1 k (r - 1)
  have hpace := h.pace
  constructor
  · intro hk
    refine ⟨by omega, ?_⟩
    have hl := h.low (by omega)
    have hk' : (k : Int) + 1 ≤ s.t.toNat := by exact_mod_cast hk
    have hr : (k : Int) * s₀.cfg.clkHz ≤
        ((r : Int) - 1 - s₀.cfg.evalLatency) * s₀.cfg.sampleRate := by nlinarith
    have hr1 : 1 ≤ r := by
      by_contra hc
      obtain rfl : r = 0 := by omega
      have hR : (1 : Int) ≤ (s₀.cfg.sampleRate : Int) := by exact_mod_cast hR1
      have hkF : (0 : Int) ≤ (k : Int) * s₀.cfg.clkHz := by positivity
      have hLR : (0 : Int) ≤ (s₀.cfg.evalLatency : Int) * (s₀.cfg.sampleRate : Int) := by
        positivity
      push_cast at hr
      nlinarith
    have : emissionCycle s₀.cfg k ≤ r - 1 := hd.2 (by rw [Nat.cast_sub hr1]; push_cast; exact hr)
    omega
  · rintro ⟨-, hr⟩
    by_contra hc
    have e := hd.1 (by omega)
    rw [Nat.cast_sub (by omega)] at e
    push_cast at e
    have hc' : (s.t.toNat : Int) ≤ k := by exact_mod_cast not_lt.1 hc
    nlinarith

theorem noResetFor_mono {m n : Nat} (h : m ≤ n) (hn : noResetFor n s₀ = true) :
    noResetFor m s₀ = true := by
  simp only [noResetFor, List.all_eq_true] at hn ⊢
  exact fun p hp => hn p (List.take_subset_take_left _ h hp)

/-- The ports of render cycle `r` carry no reset. -/
theorem noResetFor_at {n : Nat} (hr : r < n) (h : noResetFor n s₀ = true)
    (hi : s.inputs = s₀.inputs.drop r) : (portsNow s).rst = false := by
  simp only [noResetFor, List.all_eq_true] at h
  unfold portsNow
  rw [hi]
  cases hd : s₀.inputs.drop r with
  | nil => rfl
  | cons p rest =>
    have hp : s₀.inputs[r]? = some p := by
      have := congrArg (fun l => l[0]?) hd
      simpa using this
    obtain ⟨hlt, hp⟩ := List.getElem?_eq_some_iff.1 hp
    have hm : p ∈ s₀.inputs.take n := by
      rw [List.mem_take_iff_getElem]
      exact ⟨r, by omega, hp⟩
    simpa using h p hm

/-- One edge of a session before its final deadline: a sample is emitted, or `t` stays. -/
theorem inSession_step (hleg : configLegal s₀.cfg = true) (h : InSession s₀ r s)
    (hrst : (portsNow s).rst = false) (hr : r < emissionCycle s₀.cfg (tSamples s₀.cfg)) :
    ∃ s', clockStep s = some s' ∧ InSession s₀ (r + 1) s' ∧
      ((emissionDue s = true ∧ ∃ res, combine s₀.cfg s₀.idxA s₀.idxB s.t = some res ∧
        s'.sv = true ∧ s'.si = s.t ∧ s'.sd = res.v ∧ s'.t.toNat = s.t.toNat + 1 ∧
        s.t.toNat < tSamples s₀.cfg) ∨
      (emissionDue s = false ∧ s'.sv = false ∧ s'.t = s.t)) := by
  have hclk := legal_clock hleg
  have hR : (1 : Int) ≤ (s₀.cfg.sampleRate : Int) := by exact_mod_cast (legal_parameters hleg).1
  have hLR : (0 : Int) ≤ (s₀.cfg.evalLatency : Int) * (s₀.cfg.sampleRate : Int) := by positivity
  have hin : s.inputs.tail = s₀.inputs.drop (r + 1) := by
    rw [h.inputs, ← List.drop_one, List.drop_drop]
  obtain ⟨h1, h2, h3, h4, h5, -⟩ := (renderOk_iff s).1 h.ok
  cases hd : emissionDue s
  · by_cases ht : s.t.toNat < tSamples s.cfg
    · have e : quietEdge s = waitEdge (beginEdge s) := by simp [quietEdge, hrst, h.st, ht]
      have hnd : 0 < s.lat ∨ s.pace < 0 := by
        by_contra hc
        push Not at hc
        have := (emissionDue_iff s).2 ⟨hrst, h.st, ht, by omega, hc.2⟩
        simp [this] at hd
      have hb : renderOk (beginEdge s) = true :=
        (renderOk_iff _).2 ⟨h1, h2, h3, h4, h5, by simp⟩
      refine ⟨_, clockStep_quiet hd, ?_, .inr ⟨rfl, by simp, by rw [e]; simp⟩⟩
      rw [e]
      refine ⟨h.cfg, h.idxA, h.idxB, h.st, rfl, hin, ?_, waitEdge_renderOk hb ht hnd rfl, ?_⟩
      · simp only [waitEdge_pace, beginEdge_pace, beginEdge_cfg, waitEdge_t, beginEdge_t, h.pace,
          h.cfg]
        push_cast
        ring
      · intro h1
        have := h.low h1
        simp only [waitEdge_pace, beginEdge_pace, beginEdge_cfg, h.cfg]
        linarith
    · have htT : s.t.toNat = tSamples s₀.cfg := by
        rw [h.cfg] at ht h1
        omega
      have hneg : s.pace < 0 := by
        by_contra hc
        rw [not_lt, inSession_pace_iff hleg h, htT] at hc
        omega
      have e : quietEdge s = finalEdge (beginEdge s) := by simp [quietEdge, hrst, h.st, ht]
      have e2 : finalEdge (beginEdge s) =
          { beginEdge s with pace := s.pace + (s.cfg.sampleRate : Int) } := by
        simp [finalEdge, not_le.2 hneg]
      refine ⟨_, clockStep_quiet hd, ?_, .inr ⟨rfl, by simp, by rw [e]; simp⟩⟩
      rw [e, e2]
      refine ⟨h.cfg, h.idxA, h.idxB, h.st, rfl, hin, ?_, ?_, ?_⟩
      · simp only [beginEdge_t, h.pace, h.cfg]
        push_cast
        ring
      · rw [h.cfg] at h1 h2 h3 h4
        rw [renderOk_iff]
        simp only [beginEdge_cfg, beginEdge_t, beginEdge_lat, beginEdge_sv, h.cfg]
        exact ⟨h1, h2, by linarith, by omega, fun hlt => by omega, by simp⟩
      · intro h1
        have := h.low h1
        simp only [h.cfg]
        linarith
  · obtain ⟨-, -, ht, -, hpc⟩ := (emissionDue_iff s).1 hd
    obtain ⟨res, hres⟩ := combine_isSome hleg s₀.idxA s₀.idxB s.t
    have hres' : combine s.cfg s.idxA s.idxB s.t = some res := by
      rw [h.cfg, h.idxA, h.idxB]
      exact hres
    have hn := nextIndex_toNat (s := s) (by rw [h.cfg]; exact hleg) ht
    refine ⟨_, clockStep_due hd hres', ?_,
      .inl ⟨rfl, res, hres, rfl, rfl, rfl, hn, by rw [← h.cfg]; exact ht⟩⟩
    refine ⟨h.cfg, h.idxA, h.idxB, h.st, rfl, hin, ?_, ?_, ?_⟩
    · simp only [emissionEdge, emitSample_pace, emitSample_t, beginEdge_pace, beginEdge_t,
        beginEdge_cfg, hn, h.pace, h.cfg]
      push_cast
      ring
    · rw [h.cfg] at h3 h4 ht
      rw [renderOk_iff]
      simp only [emissionEdge, emitSample_cfg, emitSample_t, emitSample_lat, emitSample_pace,
        emitSample_sv, emitSample_si, beginEdge_cfg, beginEdge_t, beginEdge_pace, hn, h.cfg]
      exact ⟨ht, le_refl _, by linarith, by linarith, fun _ => by linarith, fun _ => trivial⟩
    · intro _
      simp only [emissionEdge, emitSample_pace, beginEdge_pace, beginEdge_cfg, h.cfg]
      linarith

/-- In its last render cycle the session has emitted all samples and its deadline is reached. -/
theorem inSession_last (hleg : configLegal s₀.cfg = true)
    (h : InSession s₀ (emissionCycle s₀.cfg (tSamples s₀.cfg)) s) :
    s.t.toNat = tSamples s₀.cfg ∧ 0 ≤ s.pace := by
  have hT := (legal_parameters hleg).2.1
  have h1 := ((renderOk_iff s).1 h.ok).1
  rw [h.cfg] at h1
  have := (inSession_emitted_iff hleg h (tSamples s₀.cfg - 1)).2
    ⟨by omega, emissionCycle_strictMono hleg (by omega)⟩
  have ht : s.t.toNat = tSamples s₀.cfg := by omega
  exact ⟨ht, (inSession_pace_iff hleg h).2 (by rw [ht])⟩

end Sys2Proof.Machine
end

