-- ==== Sys2Proof/Laws/Words.lean ====
section
/-! SUPPORT. The word operators as bit vector operators, and the pure effect of an operator word. -/

namespace Sys2Proof.Machine

theorem addWord_eq (a b : Word) : addWord a b = a + b := by
  apply BitVec.eq_of_toNat_eq
  rw [addWord, wrap32, BitVec.toNat_ofNat, BitVec.toNat_add]

theorem subWord_eq (a b : Word) : subWord a b = a - b := by
  apply BitVec.eq_of_toNat_eq
  rw [subWord, wrap32, BitVec.toNat_ofNat, BitVec.toNat_sub]
  have := a.isLt
  have := b.isLt
  omega

theorem mulWord_eq (a b : Word) : mulWord a b = a * b := by
  apply BitVec.eq_of_toNat_eq
  rw [mulWord, wrap32, BitVec.toNat_ofNat, BitVec.toNat_mul]

theorem divuWord_eq (a b : Word) : divuWord a b = if b = 0 then 0 else a / b := by
  unfold divuWord
  split
  · rfl
  · apply BitVec.eq_of_toNat_eq
    rw [wrap32, BitVec.toNat_ofNat, BitVec.toNat_udiv]
    exact Nat.mod_eq_of_lt (lt_of_le_of_lt (Nat.div_le_self _ _) a.isLt)

theorem moduWord_eq (a b : Word) : moduWord a b = if b = 0 then 0 else a % b := by
  unfold moduWord
  split
  · rfl
  · apply BitVec.eq_of_toNat_eq
    rw [wrap32, BitVec.toNat_ofNat, BitVec.toNat_umod]
    exact Nat.mod_eq_of_lt (lt_of_le_of_lt (Nat.mod_le _ _) a.isLt)

theorem shlWord_eq (a b : Word) : shlWord a b = a <<< (b.toNat % 32) := by
  apply BitVec.eq_of_toNat_eq
  rw [shlWord, wrap32, BitVec.toNat_ofNat, BitVec.toNat_shiftLeft, Nat.shiftLeft_eq, shiftAmount]

theorem shrWord_eq (a b : Word) : shrWord a b = a >>> (b.toNat % 32) := by
  apply BitVec.eq_of_toNat_eq
  rw [shrWord, wrap32, BitVec.toNat_ofNat, BitVec.toNat_ushiftRight, Nat.shiftRight_eq_div_pow,
    shiftAmount]
  exact Nat.mod_eq_of_lt (lt_of_le_of_lt (Nat.div_le_self _ _) a.isLt)

theorem ctxBinary_cons (f : Word → Word → Word) (dz sa : Word → Word → Bool) (a b : Word)
    (below : List Word) (d s : Bool) :
    ctxBinary f dz sa ⟨b :: a :: below, d, s⟩ =
      some ⟨f a b :: below, d || dz a b, s || sa a b⟩ := rfl

/-- One operator word computes `opValue` and raises the flag its operands raise. -/
theorem runWords_opwOf (op : BinOp) (t a b : Word) (below : List Word) (dz sa : Bool) :
    runWords t [opwOf op] ⟨b :: a :: below, dz, sa⟩ =
      some { stack := opValue op a b :: below
             dz := dz || (decide (op = .div ∨ op = .mod) && decide (b = 0))
             sa := sa || (decide (op = .shl ∨ op = .shr) && decide (32 ≤ b.toNat)) } := by
  cases op <;>
    simp only [opwOf, runWords, wordEffect, ctxBinary_cons, noFlag, zeroDivisor, wideShift,
      opValue, andWord, orWord, xorWord, addWord_eq, subWord_eq, mulWord_eq, divuWord_eq,
      moduWord_eq, shlWord_eq, shrWord_eq] <;> simp

/-- Words without END, then END: the evaluation returns the context that the words leave. -/
theorem evalProgram_of_runWords (t : Word) (is : List Instr) (c c' : Ctx)
    (h : runWords t is c = some c') : evalProgram t (is ++ [.endOp]) c = ctxReturn c' := by
  induction is generalizing c with
  | nil =>
    simp only [runWords, Option.some.injEq] at h
    simp [h, evalProgram]
  | cons i is ih =>
    rw [runWords] at h
    split at h
    · rename_i c1 h1
      have hi : i ≠ .endOp := by
        rintro rfl
        simp [wordEffect] at h1
      simp only [List.cons_append, evalProgram, hi, if_false, h1]
      exact ih _ h
    · cases h

end Sys2Proof.Machine
end

