-- ==== Sys2Proof/Tests/Slice0.lean ====
section
/-! SUPPORT. Tests of the model, and witnesses of the statements' hypotheses. The expected values
come from 95_test_vectors.md and from the examples in the rules; each test names its source. -/

namespace Sys2Proof.Tests

open Sys2Proof.Machine

/-! ### Well-formedness: one refused descriptor for each check (95 2.2) -/

theorem test_wf_refuses_too_long :
    checkDescriptor (List.replicate 33 0x01000000 ++ List.replicate 32 0x11000000 ++ [0x00000000]) =
      .error .badLength := by decide
theorem test_wf_refuses_no_word : checkDescriptor [] = .error .badLength := by decide
theorem test_wf_refuses_no_end : checkDescriptor [0x01000000] = .error .noEnd := by decide
theorem test_wf_refuses_end_inside :
    checkDescriptor [0x01000000, 0x00000000, 0x01000000, 0x00000000] = .error .endInside := by
  decide
theorem test_wf_refuses_reserved_opcode :
    checkDescriptor [0x01000000, 0x03000000, 0x00000000] = .error .reservedOpcode := by decide
theorem test_wf_refuses_immediate_in_and :
    checkDescriptor [0x01000000, 0x01000000, 0x10000001, 0x00000000] = .error .nonzeroImm := by
  decide
theorem test_wf_refuses_underflow :
    checkDescriptor [0x10000000, 0x00000000] = .error .underflow := by decide
theorem test_wf_refuses_overflow :
    checkDescriptor (List.replicate 17 0x01000000 ++ List.replicate 16 0x11000000 ++ [0x00000000]) =
      .error .overflow := by decide
theorem test_wf_refuses_depth_0_at_end :
    checkDescriptor [0x00000000] = .error .endDepth := by decide
theorem test_wf_refuses_depth_2_at_end :
    checkDescriptor [0x01000000, 0x01000000, 0x00000000] = .error .endDepth := by decide
theorem test_wf_takes_depth_16 :
    descriptorWf
      (List.replicate 16 0x01000000 ++ List.replicate 15 0x11000000 ++ [0x00000000]) = true := by
  decide

/-! ### Decoding: the words of spec/opcode_table.json, bit by bit -/

theorem test_decode_end : decode 0b00000000000000000000000000000000 = .ok .endOp := by decide
theorem test_decode_t : decode 0b00000001000000000000000000000000 = .ok .t := by decide
theorem test_decode_const : decode 0b00000010000000000000000100000000 =
    .ok (.const 256) := by decide
theorem test_decode_and : decode 0b00010000000000000000000000000000 = .ok .and := by decide
theorem test_decode_or : decode 0b00010001000000000000000000000000 = .ok .or := by decide
theorem test_decode_xor : decode 0b00010010000000000000000000000000 = .ok .xor := by decide
theorem test_decode_add : decode 0b00100000000000000000000000000000 = .ok .add := by decide
theorem test_decode_sub : decode 0b00100001000000000000000000000000 = .ok .sub := by decide
theorem test_decode_mul : decode 0b00100010000000000000000000000000 = .ok .mul := by decide
theorem test_decode_divu : decode 0b00100011000000000000000000000000 = .ok .divu := by decide
theorem test_decode_modu : decode 0b00100100000000000000000000000000 = .ok .modu := by decide
theorem test_decode_shl : decode 0b00110000000000000000000000000000 = .ok .shl := by decide
theorem test_decode_shr : decode 0b00110001000000000000000000000000 = .ok .shr := by decide
theorem test_decode_table_word : decodeTableWord 32 0x02FFFFFF = some (.const 0xFFFFFF) := by decide

/-! ### The instructions, one word each (95 2.1) -/

/-- `T END` in every catalog entry. -/
def identity : Config := uniformConfig [0x01000000, 0x00000000]

/-- A state whose evaluation stack is `stack`, at sample index `t`. -/
def holding (t : Word) (stack : List Word) : State :=
  { State.resetWith identity [] with
    t := t, ev := { Evaluator.start .formulaA with stack := stack } }

/-- What a word leaves: the stack and the two flags. -/
def leaves (o : Outcome) : Option (List Word × Bool × Bool) :=
  (nextOf o).map fun s => (s.ev.stack, s.ev.dz, s.ev.sa)

/-- A binary word on the operands a, then b. -/
def onOperands (i : Instr) (a b : Word) : Option (List Word × Bool × Bool) :=
  leaves (exec i (holding 0 [b, a]))

theorem test_end : (nextOf (exec .endOp
    { holding 0 [0x2A] with ev := { (holding 0 [0x2A]).ev with sa := true } })).map (·.ev.result) =
      some (some ⟨0x2A, false, true⟩) := by decide
theorem test_t : leaves (exec .t (holding 0x0000ABCD [])) = some ([0x0000ABCD], false, false) := by
  decide
theorem test_const_zero_extends :
    leaves (exec (.const 0xFFFFFF) (holding 0 [])) = some ([0x00FFFFFF], false, false) := by decide
theorem test_const_keeps_the_stack :
    leaves (exec (.const 0) (holding 0 [7])) = some ([0, 7], false, false) := by decide

theorem test_and :
    onOperands .and 0xF0F0 0xFF00 = some ([0xF000], false, false) := by decide
theorem test_or :
    onOperands .or 0x80000000 1 = some ([0x80000001], false, false) := by decide
theorem test_xor :
    onOperands .xor 0xFFFF 0xF0F0 = some ([0xF0F], false, false) := by decide
theorem test_add_wraps :
    onOperands .add 0xFFFFFFFF 1 = some ([0], false, false) := by decide
theorem test_add :
    onOperands .add 0x12345678 0x9ABCDEF0 = some ([0xACF13568], false, false) := by decide
theorem test_sub_wraps :
    onOperands .sub 5 7 = some ([0xFFFFFFFE], false, false) := by decide
theorem test_sub :
    onOperands .sub 7 5 = some ([2], false, false) := by decide
theorem test_mul_keeps_the_low_half :
    onOperands .mul 100000 100000 = some ([0x540BE400], false, false) := by decide
theorem test_mul :
    onOperands .mul 0xFFFFFFFF 0xFFFFFFFF = some ([1], false, false) := by decide
theorem test_divu :
    onOperands .divu 7 2 = some ([3], false, false) := by decide
theorem test_divu_by_zero :
    onOperands .divu 5 0 = some ([0], true, false) := by decide
theorem test_modu :
    onOperands .modu 0xFFFFFFFF 16 = some ([15], false, false) := by decide
theorem test_modu_by_zero :
    onOperands .modu 5 0 = some ([0], true, false) := by decide
theorem test_shl :
    onOperands .shl 1 31 = some ([0x80000000], false, false) := by decide
theorem test_shl_by_33 :
    onOperands .shl 1 33 = some ([2], false, true) := by decide
theorem test_shr_fills_with_zeros :
    onOperands .shr 0xFFFFFFFF 4 = some ([0xFFFFFFF], false, false) := by decide
theorem test_shr_by_32 :
    onOperands .shr 0x80000000 32 = some ([0x80000000], false, true) := by decide

/-! ### Evaluation: programs P1 to P4 (95 2.3, 3.1 to 3.4) -/

def p1 : Descriptor := [0x01000000, 0x01000000, 0x02000006, 0x31000000, 0x10000000, 0x01000000,
  0x02000002, 0x31000000, 0x02000100, 0x24000000, 0x11000000, 0x00000000]
def p2 : Descriptor := [0x01000000, 0x01000000, 0x02000004, 0x31000000, 0x01000000, 0x02000008,
  0x31000000, 0x10000000, 0x24000000, 0x00000000]
def p3 : Descriptor := [0x01000000, 0x02010001, 0x02000008, 0x30000000, 0x02000093, 0x11000000,
  0x22000000, 0x00000000]
def p4 : Descriptor := [0x01000000, 0x02000000, 0x02000001, 0x21000000, 0x12000000, 0x020000FF,
  0x10000000, 0x00000000]

theorem test_p1 : evalDescriptor p1 1000 = some ⟨0xFA, false, false⟩ := by decide
theorem test_p1_at_the_top :
    evalDescriptor p1 0xFFFFFFFF = some ⟨0x03FFFFFF, false, false⟩ := by decide
theorem test_p2 : evalDescriptor p2 4368 = some ⟨16, false, false⟩ := by decide
theorem test_p2_hazard : evalDescriptor p2 257 = some ⟨0, true, false⟩ := by decide
theorem test_p3 : evalDescriptor p3 1000 = some ⟨0xE8062638, false, false⟩ := by decide
theorem test_p4 : evalDescriptor p4 0x1234 = some ⟨0xCB, false, false⟩ := by decide

/-- The fixture catalogs of 95 3.5. -/
def fixture : Config :=
  { identity with
    catA := { identity.catA with f6 := p1, f0 := p4 }
    catB := { identity.catB with f3 := p3, f0 := p2 } }

/-- The configuration of session S1 (95 3.6): F = 10, R = 3, T = 4, L = 1. -/
def s1Config : Config :=
  { fixture with
    sampleRate := 3, durationNum := 4, durationDen := 3, clkHz := 10, evalLatency := 1 }

/-- The configuration of session S2 (95 3.7): F = R = 3, T = 3, L = 0. -/
def s2Config : Config := { fixture with sampleRate := 3, clkHz := 3 }

theorem test_fixtures_are_legal : configLegal s1Config = true ∧ tSamples s1Config = 4 ∧
    configLegal s2Config = true ∧ tSamples s2Config = 3 := by decide
theorem test_combine : combine s1Config 6 3 1000 = some ⟨0xE8062732, false, false⟩ := by decide
theorem test_combine_flags : combine s1Config 0 0 0 = some ⟨0xFF, true, false⟩ := by decide
theorem test_combine_wraps :
    combineResults ⟨0x12345678, false, false⟩ ⟨0x9ABCDEF0, false, true⟩ =
      ⟨0xACF13568, false, true⟩ := by decide
/-- The sink's step (95 2.5, last row). -/
theorem test_sink : (sinkAmplitude s1Config 0xE8062732).toNat = 0x32 := by decide

/-! ### Selector (95 2.4) -/

theorem test_select : select [0x04, 0x3A, 0x9F, 0x12] = (6, 3) := by decide
theorem test_select_is_exact : select (List.replicate 18 0xFF) = (4, 4) := by decide

/-! ### Status word (95 2.6), sample counts (R192), emission cycles (95 2.7) -/

theorem test_status_fields :
    statusWord { State.resetWith identity [] with
      st := .done, idxA := 6, idxB := 6, degen := true, shamt := true, nonstd := true,
      idCnt := 255, idLen := 255 } = 0x00FF0FDA := by decide
theorem test_status_render :
    statusWord { State.resetWith s1Config [] with
      st := .render, idxA := 6, idxB := 3, idLen := 4 } = 0x00040079 := by decide
theorem test_sample_count :
    tSamples { identity with sampleRate := 11025, durationNum := 10 } = 110250 := by decide

/-- F = 7, R = 2, T = 5, L = 2 (95 2.7). -/
def paced : Config :=
  { identity with
    sampleRate := 2, durationNum := 5, durationDen := 2, clkHz := 7, evalLatency := 2 }

theorem test_emission_cycles :
    (List.range 6).map (emissionCycle paced) = [2, 6, 9, 13, 16, 20] := by decide

/-! ### Single edges of the sessions S1 and S2 -/

/-- A byte on the port. -/
def offer (x : Byte) (last : Bool) : PortIn :=
  { rst := false, idValid := true, idData := x, idLast := last }

/-- A reset on the port, with a byte offered as well. -/
def resetPort : PortIn := { rst := true, idValid := true, idData := 0x70, idLast := true }

/-- IDLE with three bytes of the identifier of S1 taken (95 1.1, S1 cycle 4). -/
def s1Idle : State :=
  { State.resetWith s1Config [offer 0x12 true] with accA := 5, accB := 1, idCnt := 3 }

/-- S1 in RENDER, from cycle 5 on. -/
def s1Render (t : Word) (pace : Int) (lat : Nat) : State :=
  { State.resetWith s1Config [] with
    st := .render, idxA := 6, idxB := 3, idLen := 4, t := t, pace := pace, lat := lat }

/-- S2 in RENDER, cycle 2. -/
def s2Render : State :=
  { State.resetWith s2Config [] with st := .render, idLen := 1, nonstd := true }

theorem test_byte_accumulates :
    (nextOf (step { s1Idle with
      accA := 3, accB := 0, idCnt := 2, inputs := [offer 0x9F false] })).map
      (fun s => (s.st, s.accA, s.accB, s.idCnt)) = some (.idle, 5, 1, 3) := by decide
theorem test_session_start :
    (nextOf (step s1Idle)).map (fun s => (s.st, s.idxA, s.idxB, s.idLen, s.nonstd, s.idCnt)) =
      some (.render, 6, 3, 4, false, 0) := by decide
theorem test_session_start_pacing :
    (nextOf (step s1Idle)).map (fun s => (s.t, s.pace, s.lat, statusWord s)) =
      some (0, -3, 1, 0x00040079) := by decide
theorem test_wait : (nextOf (step (s1Render 0 (-3) 1))).map (fun s => (s.pace, s.lat, s.sv)) =
    some (0, 0, false) := by decide
theorem test_emission_edge :
    (clockStep (s1Render 2 1 0)).map (fun s => (s.sv, s.sd, s.si, s.t, s.pace, s.lat)) =
      some (true, 0x02000326, 2, 3, -6, 1) := by decide
theorem test_emission_edge_sets_degen :
    (clockStep s2Render).map (fun s => (s.sd, s.t, s.pace, statusWord s)) =
      some (0xFF, 1, 0, 0x00010501) := by decide
theorem test_final_period_waits :
    (nextOf (step (s1Render 4 (-1) 1))).map (fun s => (s.st, s.pace, s.lat)) =
      some (.render, 2, 1) := by decide
theorem test_final_period_ends :
    (nextOf (step (s1Render 4 2 1))).map (fun s => (s.st, s.pace, statusWord s)) =
      some (.done, 2, 0x0004007A) := by decide
theorem test_done_edge :
    (nextOf (step { s1Render 4 2 1 with st := .done })).map
      (fun s => (s.t, s.pace, s.lat, statusWord s)) = some (0, 0, 0, 0x00040078) := by decide
/-- 95 2.8, second and fourth rows. -/
theorem test_reset_edge :
    (nextOf (step { s1Render 2 1 0 with sd := 0x01000193, si := 1, inputs := [resetPort] })) =
      some (State.resetWith s1Config []) := by decide

/-! ### Written formulas (30_encoding.md R80 to R85) -/

theorem test_infix_example :
    assembleInfix "(t & (t>>6)) | ((t>>2) % 256)".toList = some p1 := by decide
theorem test_infix_li32 : assembleInfix "t * 0x01000193".toList = some p3 := by decide
theorem test_infix_not : assembleInfix "~t & 255".toList = some p4 := by decide
/-- R81: `|` is looser than `^`, `^` than `&`, `&` than `<<`, `<<` than `+`, `+` than `*`. -/
theorem test_infix_precedence :
    parseInfix "t|t^t&t<<t+t*t".toList =
      parseInfix "t|(t^(t&(t<<(t+(t*t)))))".toList ∧
    parseInfix "t-t-t".toList = parseInfix "(t-t)-t".toList ∧
    parseInfix "t|t^t&t<<t+t*t".toList ≠ none := by decide
theorem test_infix_refuses : parseInfix "t + ".toList = none := by decide
theorem test_listing : assemble
    "t\nT ; twice\nConst 4\nSHR\nT\nCONST 0x8\nSHR\nAND\nMODU".toList = some p2 := by decide
theorem test_listing_labels : parseListing "A3:\nT\nB0: ; b\nT\nNOT\nEND".toList =
    some [⟨.A, 3, [.t, .endOp]⟩,
      ⟨.B, 0, [.t, .const 0, .const 1, .sub, .xor, .endOp]⟩] := by decide

/-! ### Placed words -/

theorem test_placed_word :
    (nextOf (step (State.reset.withFetchWord 32 0x21000000))).map (fun s => (s.ev.stack, s.ev.k)) =
      some ([0], 3) := by decide

/-! ### Witnesses: concrete states and operands that meet each statement's hypotheses -/

/-- A sample is due and the evaluator is about to run formula A's first word. -/
def dueState : State :=
  { State.resetWith identity [] with st := .render, ev := Evaluator.start .formulaA }

/-- The same sample with formula A's value returned. -/
def dueAfterA : State :=
  { dueState with ev := { dueState.ev with k := 1, result := some ⟨0, false, false⟩ } }

/-- The same sample with formula B about to run. -/
def dueB : State := { dueState with ev := Evaluator.start (.formulaB ⟨0, false, false⟩) }

/-- The same sample with both values returned. -/
def dueAfterB : State :=
  { dueB with ev := { dueB.ev with k := 1, result := some ⟨0, false, false⟩ } }

/-- A formula that divides by zero and shifts by 32. -/
def flagging : Config :=
  uniformConfig [0x01000000, 0x02000000, 0x23000000, 0x02000020, 0x30000000, 0x00000000]

/-- A session of `paced` that has just started. -/
def pacedStart : State :=
  { State.resetWith paced [] with st := .render, pace := -4, lat := 2 }

/-- The first and the last opcode of each reserved range. -/
theorem witness_ReservedOpcodesAreRefused :
    ((0x03 ≤ (0x03000000 : Word).toNat / 2 ^ 24 ∧ (0x0F000000 : Word).toNat / 2 ^ 24 ≤ 0x0F) ∧
      (0x13 ≤ (0x13000000 : Word).toNat / 2 ^ 24 ∧ (0x1F000000 : Word).toNat / 2 ^ 24 ≤ 0x1F) ∧
      (0x25 ≤ (0x25000000 : Word).toNat / 2 ^ 24 ∧ (0x2F000000 : Word).toNat / 2 ^ 24 ≤ 0x2F) ∧
      (0x32 ≤ (0x32000000 : Word).toNat / 2 ^ 24 ∧ (0xFF000000 : Word).toNat / 2 ^ 24 ≤ 0xFF)) ∧
    ∀ w : Word, w ∈ descriptorOf (uniformConfig [0x01000000, w, 0x00000000]) .B 6 :=
  ⟨by decide, fun _ => .tail _ (.head _)⟩
theorem witness_NonzeroImmediateFailsWf :
    (0x10000001 : Word) ∈ ([0x01000000, 0x01000000, 0x10000001, 0x00000000] : Descriptor) ∧
      (0x10000001 : Word).toNat / 2 ^ 24 ≠ 0x02 ∧ (0x10000001 : Word).toNat % 2 ^ 24 ≠ 0 := by
  decide
theorem witness_WfIsTheSevenConditions :
    descriptorWf (descriptorOf (uniformConfig [0x10000000, 0x00000000]) .A 0) = false ∧
      descriptorWf (descriptorOf identity .A 0) = true := by decide
theorem witness_ScanFindsTheDescriptor :
    descriptorWf [0x01000000, 0x00000000] = true := by decide
theorem witness_EndReturnsTheResult :
    (holding 0 [0x2A]).ev.stack = 0x2A :: [] ∧ checkFrom 1 [.endOp] = .ok () ∧
      descriptorWf [0x01000000, 0x00000000] = true := by decide
/-- The deepest stack with room, and a sample under evaluation. -/
theorem witness_TPushesTheSampleIndex :
    (holding 3 (List.replicate 15 0)).ev.stack.length < 16 ∧
      invariant dueState = true ∧ dueState.ev.phase ≠ .rest := by decide
theorem witness_ConstPushesItsImmediate :
    (holding 3 (List.replicate 15 0)).ev.stack.length < 16 := by decide
/-- Of the statements on AND, OR, XOR, ADD, SUB, MUL, SHL and SHR. -/
theorem witness_BinaryWords : (holding 0 [2, 7]).ev.stack = 2 :: 7 :: [] := by decide
/-- Of the statements on DIVU and MODU, a zero divisor and another; of their recomposition. -/
theorem witness_DivuDividesOrFlags :
    (holding 0 [0, 5]).ev.stack = 0 :: 5 :: [] ∧ (0 : Word) = 0 ∧
      (holding 0 [1, 5]).ev.stack = 1 :: 5 :: [] ∧ (1 : Word) ≠ 0 := by decide
theorem witness_StackLimitsStopByName :
    (holding 0 []).ev.stack = [] ∧ Instr.pops .sub = 2 ∧ (holding 0 [1]).ev.stack.length < 2 ∧
      Instr.pops .t = 0 ∧ 16 ≤ (holding 0 (List.replicate 16 0)).ev.stack.length := by decide
/-- A word that changes `dz`, one that changes `sa`, and one on a state with both set. -/
theorem witness_FlagsWrittenByOpcode :
    onOperands .modu 5 0 = some ([0], true, false) ∧
      onOperands .shr 5 32 = some ([5], false, true) ∧
      leaves (exec .add { holding 0 [1, 2] with
        ev := { (holding 0 [1, 2]).ev with dz := true, sa := true } }) =
          some ([3], true, true) := by decide
theorem witness_WordsActOnTheContextAlone :
    (nextOf (exec .t (holding 3 [5]))).isSome = true ∧
      (holding 3 [5]).ev = { holding 3 [5] with si := 9 }.ev ∧
      (holding 3 [5]).t = { holding 3 [5] with si := 9 }.t := by decide
theorem witness_EvaluationTakesOneStepAWord :
    descriptorWf p1 = true ∧ configLegal dueState.cfg = true ∧ emissionDue dueState = true ∧
      dueState.ev = Evaluator.start .formulaA ∧ emissionDue dueB = true ∧
      dueB.ev = Evaluator.start (.formulaB ⟨0, false, false⟩) := by decide
theorem witness_CombinerAddsAndOrs :
    evalDescriptor (descriptorOf s1Config .A 0) 0 = some ⟨0xFF, false, false⟩ ∧
      evalDescriptor (descriptorOf s1Config .B 0) 0 = some ⟨0, true, false⟩ := by decide
theorem witness_StepRunsTheDecodedWord :
    configLegal dueState.cfg = true ∧ emissionDue dueState = true ∧ dueState.ev.result = none ∧
      decode 0x01000000 = .ok .t ∧ dueState.ev.phase = .formulaA ∧
      romRead dueState.cfg .A dueState.idxA dueState.ev.k = some 0x01000000 ∧
      emissionDue dueB = true ∧ dueB.ev.result = none ∧
      dueB.ev.phase = .formulaB ⟨0, false, false⟩ ∧
      romRead dueB.cfg .B dueB.idxB dueB.ev.k = some 0x01000000 := by decide
theorem witness_StepSequencesTheFormulas :
    configLegal dueState.cfg = true ∧
      emissionDue { dueState with ev := Evaluator.rest } = true ∧ emissionDue dueAfterA = true ∧
      dueAfterA.ev.phase = .formulaA ∧ dueAfterA.ev.result = some ⟨0, false, false⟩ ∧
      invariant dueAfterB = true ∧ dueAfterB.ev.phase = .formulaB ⟨0, false, false⟩ ∧
      dueAfterB.ev.result = some ⟨0, false, false⟩ := by decide
/-- One configuration for each constraint of R8, each just outside it. -/
theorem witness_IllegalConfigurationIsRefused :
    configLegal { identity with sampleRate := 0 } = false ∧
      configLegal { identity with durationNum := 0 } = false ∧
      configLegal { identity with durationNum := 2 ^ 32, clkHz := 2 ^ 32 } = false ∧
      configLegal { paced with clkHz := 5 } = false ∧
      configLegal (uniformConfig [0x10000000, 0x00000000]) = false := by decide
theorem witness_RomIsConstant :
    step (s1Render 0 (-3) 1) = .next (quietEdge (s1Render 0 (-3) 1)) := by rfl
theorem witness_ResetEdgeResetsEveryRegister :
    configLegal s1Config = true ∧
      (portsNow { s1Render 2 1 0 with inputs := [resetPort] }).rst = true := by decide
theorem witness_NonLastByteAccumulates :
    configLegal s1Config = true ∧
      portsNow { s1Idle with inputs := [offer 0x9F false] } = offer 0x9F false ∧
      s1Idle.st = .idle := by decide
/-- Lengths 4 and 7, their neighbours, and the saturated count. -/
theorem witness_LastByteStartsTheSession :
    configLegal s1Config = true ∧ portsNow s1Idle = offer 0x12 true ∧ s1Idle.st = .idle ∧
      ([(2, 3), (3, 4), (4, 5), (6, 7), (7, 8), (254, 255), (255, 255)] :
        List (BitVec 8 × Nat)).all (fun p =>
          decide (p.2 = min ({ s1Idle with idCnt := p.1 }.idCnt.toNat + 1) 255)) = true := by
  decide
theorem witness_IdleWaitsForAByte :
    configLegal s1Config = true ∧ portsNow { s1Idle with inputs := [] } = PortIn.quiet ∧
      s1Idle.st = .idle ∧ PortIn.quiet.rst = false ∧ PortIn.quiet.idValid = false := by decide
theorem witness_EmissionEdgeEmitsTheSample :
    configLegal s1Config = true ∧ (portsNow (s1Render 3 0 0)).rst = false ∧
      (s1Render 3 0 0).st = .render ∧ (s1Render 3 0 0).t.toNat < tSamples s1Config ∧
      (s1Render 3 0 0).lat = 0 ∧ 0 ≤ (s1Render 3 0 0).pace := by decide
/-- A wait for the evaluator, and one for the deadline alone. -/
theorem witness_WaitingEdgeCountsDown :
    configLegal s1Config = true ∧ (portsNow (s1Render 1 (-1) 0)).rst = false ∧
      (s1Render 1 (-1) 0).t.toNat < tSamples s1Config ∧ (s1Render 1 (-1) 0).pace < 0 ∧
      (s1Render 1 (-7) 1).lat ≠ 0 := by decide
theorem witness_FinalPeriodEndsInDone :
    configLegal s1Config = true ∧ (s1Render 4 0 1).t.toNat = tSamples s1Config ∧
      0 ≤ (s1Render 4 0 1).pace ∧ (s1Render 4 (-1) 1).pace < 0 ∧
      (portsNow (s1Render 4 0 1)).rst = false := by decide
theorem witness_DoneEdgeReturnsToIdle :
    configLegal s1Config = true ∧ { s1Render 4 2 1 with st := .done }.st = .done ∧
      (portsNow { s1Render 4 2 1 with st := .done }).rst = false := by decide
theorem witness_OutputPortsAreFunctionsOfTheState : byteAccepted s1Idle = true := by decide
theorem witness_ResetMeetsTheInvariant : configLegal s1Config = true := by decide
/-- Also of the statements that the step keeps the invariant and never stops. -/
theorem witness_StepKeepsTheInvariant :
    invariant (s1Render 0 (-3) 1) = true ∧
      (nextOf (step (s1Render 0 (-3) 1))).isSome = true ∧ invariant dueAfterA = true ∧
      (nextOf (step dueAfterA)).isSome = true := by decide
/-- Runs from reset to IDLE and to RENDER with a sample on its way. -/
theorem witness_ReachableStatesMeetTheStatedInvariants :
    configLegal paced = true ∧
      (nextOf (stepRun 0 (State.resetWith paced []))).map (·.st) = some .idle ∧
      (nextOf (stepRun 1 (State.resetWith paced [offer 0x70 true]))).map
        (fun s => (s.st, s.t, s.lat)) = some (.render, 0, 2) := by decide
/-- A cycle that emits and one that does not. -/
theorem witness_WordStepsRefineTheClockEdge :
    invariant (s1Render 2 1 0) = true ∧ cycleBoundary (s1Render 2 1 0) = true ∧
      emissionDue (s1Render 2 1 0) = true ∧ emissionDue (s1Render 0 (-3) 1) = false := by decide
/-- Each transition: IDLE stays and starts, RENDER in its three cases, DONE, and a reset. -/
theorem witness_SessionStateMachine :
    invariant s1Idle = true ∧ (clockStep s1Idle).isSome = true ∧
      ((portsNow s1Idle).idValid = true ∧ (portsNow s1Idle).idLast = true) ∧
      (portsNow { s1Idle with inputs := [] }).idValid = false ∧
      invariant (s1Render 2 1 0) = true ∧
      (clockStep (s1Render 2 1 0)).map (·.t) = some 3 ∧
      invariant (s1Render 4 (-1) 1) = true ∧ invariant (s1Render 4 0 1) = true ∧
      (s1Render 4 0 1).t.toNat = tSamples s1Config ∧
      invariant { s1Render 4 2 1 with st := .done } = true ∧
      invariant { s1Render 2 1 0 with inputs := [resetPort] } = true := by decide
theorem witness_IdentifierPortIgnoredWhileBusy :
    (s1Render 4 0 1).st ≠ .idle ∧ (offer 0x12 true).rst = PortIn.quiet.rst ∧
      (offer 0x12 true).rst = false ∧
      (clockStep { s1Render 4 0 1 with inputs := [offer 0x12 true] }).map (·.st) =
        some .done := by decide
theorem witness_IndicesChangeOnlyAtSessionStart :
    (nextOf (step s1Idle)).map (fun s => (s.idxA, s.idxB)) = some (6, 3) ∧
      (s1Idle.idxA, s1Idle.idxB) = (0, 0) := by decide
/-- Both flags set by one sample, and both cleared by a session start. -/
theorem witness_ConditionFlagsAreSticky :
    (clockStep { dueState with cfg := flagging }).map (fun s => (s.degen, s.shamt)) =
        some (true, true) ∧
      emissionDue { dueState with cfg := flagging } = true ∧
      combine flagging 0 0 0 = some ⟨0, true, true⟩ ∧
      (clockStep { s1Idle with degen := true, shamt := true }).map (fun s => (s.degen, s.shamt)) =
        some (false, false) := by decide
theorem witness_SampleOutputsHold :
    (clockStep (s1Render 2 1 0)).isSome = true ∧ emissionDue (s1Render 2 1 0) = true ∧
      (combine s1Config 6 3 2).isSome = true ∧ (clockStep (s1Render 0 (-3) 1)).isSome = true ∧
      emissionDue (s1Render 0 (-3) 1) = false ∧ (portsNow (s1Render 0 (-3) 1)).rst = false := by
  decide
theorem witness_NoUnderrun :
    invariant (s1Render 1 (-7) 1) = true ∧ 0 < (s1Render 1 (-7) 1).lat ∧
      invariant (s1Render 1 0 0) = true ∧ (s1Render 1 0 0).t.toNat < tSamples s1Config ∧
      (portsNow (s1Render 1 0 0)).rst = false ∧ 0 ≤ (s1Render 1 0 0).pace := by decide
theorem witness_PartialIdentifierStays :
    { s1Idle with inputs := [PortIn.quiet, offer 1 true] }.st = .idle ∧
      s1Idle.ev = Evaluator.rest ∧ s1Idle.sv = false ∧ s1Idle.idCnt ≠ 0 ∧
      ∀ p ∈ [PortIn.quiet, offer 1 true].take 1, p.rst = false ∧ p.idValid = false := by decide
/-- The identifier of S1, with a cycle without an offer in it. -/
theorem witness_RegistersComputeTheSelection :
    deliversIdentifier [0x04, 0x3A, 0x9F, 0x12] [offer 0x04 false, offer 0x3A false, PortIn.quiet,
      offer 0x9F false, offer 0x12 true] = true := by decide
theorem witness_SelectionIgnoresByteOrder :
    List.Perm ([0x04, 0x3A, 0x9F, 0x12] : List Byte) [0x3A, 0x04, 0x12, 0x9F] := by decide
/-- Also of the statements on the session's end and on its samples. -/
theorem witness_EmissionCycles :
    configLegal paced = true ∧ sessionStarted pacedStart = true ∧
      noResetFor (emissionCycle paced (tSamples paced) + 2) pacedStart = true ∧
      4 < tSamples paced := by decide
/-- A reset in RENDER, one cycle without an offer, then a byte of a later identifier. -/
def s1Aborted : State :=
  { s1Render 2 1 0 with inputs := [resetPort, PortIn.quiet, offer 0x04 false] }

theorem witness_ResetAbortsTheSession :
    (portsNow s1Aborted).rst = true ∧
      (∀ p ∈ s1Aborted.inputs.tail.take 1, p.idValid = false) ∧
      ¬(∀ p ∈ s1Aborted.inputs.tail.take 2, p.idValid = false) ∧
      (clockStep s1Aborted).isSome = true := by decide
/-- Each side of each equivalence: a descriptor that fails, alone and with a constraint that fails
too; and each numeric constraint alone, just outside its range. -/
theorem witness_RefusalsNameTheirCondition :
    descriptorWf (descriptorOf (uniformConfig [0x10000000, 0x00000000]) .A 0) = false ∧
      descriptorWf (descriptorOf
        { uniformConfig [0x10000000, 0x00000000] with clkHz := 0 } .A 0) = false ∧
      descriptorsLegal identity = true ∧
      ¬1 ≤ tSamples { identity with durationNum := 0 } ∧
      ¬tSamples { identity with durationNum := 2 ^ 32 } ≤ 2 ^ 32 - 1 ∧
      ¬1 ≤ { identity with sampleRate := 0 }.sampleRate ∧
      ¬({ paced with clkHz := 5 }.evalLatency + 1) * paced.sampleRate ≤
        { paced with clkHz := 5 }.clkHz := by decide
theorem witness_DiagnosticsDoNotAffectLaterSessions :
    configLegal s1Idle.cfg = true ∧ s1Idle.st = .idle ∧ s1Idle.sv = false ∧
      s1Idle.ev = Evaluator.rest := by decide
theorem witness_PseudoInstructionsExpand :
    ({ stack := [0x1234], dz := false, sa := false } : Ctx).stack = 0x1234 :: [] := by decide

end Sys2Proof.Tests
end

section
/-! PROOF. The legality of configurations and the refusal of the illegal ones (00_scope.md R8). -/

namespace Sys2Proof.Machine

/-- R8's conditions: no E2 and no E1. That L is at least 0 holds by its type. -/
theorem configLegal_iff (c : Config) :
    configLegal c = true ↔
      (1 ≤ c.sampleRate ∧ 1 ≤ tSamples c ∧ tSamples c ≤ 2 ^ 32 - 1 ∧
        (c.evalLatency + 1) * c.sampleRate ≤ c.clkHz) ∧
      ∀ cat i, descriptorWf (descriptorOf c cat i) = true := by
  rw [configLegal, Bool.and_eq_true, descriptorsLegal_iff, parametersLegal_iff, and_comm]

theorem elaborationRefusal_of_descriptors {c : Config} (h : descriptorsLegal c = false) :
    elaborationRefusal c = some .illegalDescriptor := by
  simp [elaborationRefusal, h]

theorem elaborationRefusal_of_parameters {c : Config} (hd : descriptorsLegal c = true)
    (hp : parametersLegal c = false) : elaborationRefusal c = some .illegalConfig := by
  simp [elaborationRefusal, hd, hp]

theorem step_of_elaborationRefusal {s : State} {r : Refusal}
    (h : elaborationRefusal s.cfg = some r) : step s = .refused r := by
  unfold step
  rw [h]

/-- An illegal configuration has an E1 or, with all descriptors well-formed, an E2. -/
theorem step_of_illegal {s : State} (h : configLegal s.cfg = false) :
    step s = .refused .illegalDescriptor ∨ step s = .refused .illegalConfig := by
  cases hd : descriptorsLegal s.cfg with
  | false => exact .inl (step_of_elaborationRefusal (elaborationRefusal_of_descriptors hd))
  | true =>
    have hp : parametersLegal s.cfg = false := by simpa [configLegal, hd] using h
    exact .inr (step_of_elaborationRefusal (elaborationRefusal_of_parameters hd hp))

/-- Settles O25: the check is R8's conjunction, and each of its two ways to fail is refused by a
name of its own. -/
theorem illegalConfigurationIsRefused : Obligations.IllegalConfigurationIsRefused := by
  refine ⟨fun c => (configLegal_iff c).trans ?_, fun _ => step_of_illegal⟩
  constructor
  · rintro ⟨⟨hR, hT, hTmax, hF⟩, hwf⟩
    exact ⟨hR, ⟨hT, hTmax⟩, Nat.zero_le _, hF, hwf⟩
  · rintro ⟨hR, ⟨hT, hTmax⟩, -, hF, hwf⟩
    exact ⟨⟨hR, hT, hTmax, hF⟩, hwf⟩

end Sys2Proof.Machine
end

section
/-! PROOF. The output ports and the fields of the status word (10_state.md R34, R37). -/

namespace Sys2Proof.Machine

open BitVec

theorem portsOut_idReady_iff (s : State) :
    (portsOut s).idReady = true ↔ s.st = .idle ∧ (portsNow s).rst = false := by
  simp [portsOut]

theorem byteAccepted_iff (s : State) :
    byteAccepted s = true ↔
      (portsNow s).idValid = true ∧ s.st = .idle ∧ (portsNow s).rst = false := by
  rw [byteAccepted, Bool.and_eq_true, portsOut_idReady_iff]

/-- Settles O36: each port is its register, and a byte is accepted only where `id_ready` is 1. -/
theorem outputPortsAreFunctionsOfTheState : Obligations.OutputPortsAreFunctionsOfTheState := by
  intro s
  refine ⟨portsOut_idReady_iff s, rfl, rfl, rfl, ?_, ?_, rfl, ?_⟩
  · simp [portsOut]
  · simp [portsOut]
  · intro h
    exact ((byteAccepted_iff s).1 h).2

theorem sessionCode_ne_three (st : Session) : sessionCode st ≠ 0b11 := by
  cases st <;> decide

theorem indexBits_toNat (i : Fin 7) : (indexBits i).toNat = i.val := by
  rw [indexBits, toNat_ofNat]
  omega

/-- A bit above the low field of a concatenation. -/
theorem getLsbD_append_of_le {v w : Nat} {hi : BitVec v} {lo : BitVec w} {i : Nat} (h : w ≤ i) :
    (hi ++ lo).getLsbD i = hi.getLsbD (i - w) := by
  rw [getLsbD_append, if_neg (Nat.not_lt.2 h)]

/-- The bit that a one-bit low field of a concatenation holds. -/
theorem getLsbD_append_bit {v : Nat} {hi : BitVec v} {b : Bool} :
    (hi ++ bit b).getLsbD 0 = b := by
  rw [getLsbD_append]
  simp [bit]

/-! Each field is read by passing over the fields below it; the count is their number. -/

theorem statusWord_state (s : State) : (statusWord s).extractLsb' 0 2 = sessionCode s.st :=
  extractLsb'_append_eq_right

theorem statusWord_idxA (s : State) : (statusWord s).extractLsb' 2 3 = indexBits s.idxA := by
  unfold statusWord
  rw [extractLsb'_append_eq_of_le (by decide)]
  exact extractLsb'_append_eq_right

theorem statusWord_idxB (s : State) : (statusWord s).extractLsb' 5 3 = indexBits s.idxB := by
  unfold statusWord
  iterate 2 rw [extractLsb'_append_eq_of_le (by decide)]
  exact extractLsb'_append_eq_right

theorem statusWord_degen (s : State) : (statusWord s).getLsbD 8 = s.degen := by
  unfold statusWord
  iterate 3 rw [getLsbD_append_of_le (by decide)]
  exact getLsbD_append_bit

theorem statusWord_shamt (s : State) : (statusWord s).getLsbD 9 = s.shamt := by
  unfold statusWord
  iterate 4 rw [getLsbD_append_of_le (by decide)]
  exact getLsbD_append_bit

theorem statusWord_nonstd (s : State) : (statusWord s).getLsbD 10 = s.nonstd := by
  unfold statusWord
  iterate 5 rw [getLsbD_append_of_le (by decide)]
  exact getLsbD_append_bit

theorem statusWord_idPending (s : State) :
    (statusWord s).getLsbD 11 = decide (s.idCnt ≠ 0) := by
  unfold statusWord
  iterate 6 rw [getLsbD_append_of_le (by decide)]
  exact getLsbD_append_bit

theorem statusWord_reserved15to12 (s : State) : (statusWord s).extractLsb' 12 4 = 0 := by
  unfold statusWord
  iterate 7 rw [extractLsb'_append_eq_of_le (by decide)]
  exact extractLsb'_append_eq_right

theorem statusWord_idLen (s : State) : (statusWord s).extractLsb' 16 8 = s.idLen := by
  unfold statusWord
  iterate 8 rw [extractLsb'_append_eq_of_le (by decide)]
  exact extractLsb'_append_eq_right

theorem statusWord_reserved31to24 (s : State) : (statusWord s).extractLsb' 24 8 = 0 := by
  unfold statusWord
  iterate 9 rw [extractLsb'_append_eq_of_le (by decide)]
  exact extractLsb'_eq_self

theorem statusWord_resetWith (c : Config) (ins : List PortIn) :
    statusWord (State.resetWith c ins) = 0 := by
  simp [statusWord, State.resetWith, sessionCode, bit, indexBits]

/-- Settles O37, field by field. -/
theorem statusWordFields : Obligations.StatusWordFields := by
  refine ⟨statusWord_resetWith, fun s => ⟨?_, ?_, ?_, statusWord_degen s, statusWord_shamt s,
    statusWord_nonstd s, ?_, statusWord_reserved15to12 s, statusWord_idLen s,
    statusWord_reserved31to24 s⟩⟩
  · rw [statusWord_state]
    cases s.st <;> rfl
  · rw [statusWord_idxA, indexBits_toNat]
  · rw [statusWord_idxB, indexBits_toNat]
  · rw [statusWord_idPending, decide_eq_true_iff]

end Sys2Proof.Machine
end

section
/-! PROOF. The state right after reset (10_state.md R38). -/

namespace Sys2Proof.Machine

theorem elaborated_legal : configLegal elaborated = true := by
  unfold elaborated
  split
  · assumption
  · exact configLegal_uniform (by decide)

/-- Settles O28: the registers by definition, the configuration in both cases of `elaborated`. -/
theorem resetStateIsAsStated : Obligations.ResetStateIsAsStated :=
  ⟨elaborated_legal, rfl, rfl, rfl, rfl, rfl, rfl, rfl, rfl, rfl, rfl, rfl, rfl, rfl, rfl, rfl, rfl,
    statusWord_resetWith _ _⟩

theorem resetWith_invariant {c : Config} (h : configLegal c = true) (ins : List PortIn) :
    invariant (State.resetWith c ins) = true := by
  refine (invariant_iff _).2 ⟨h, ?_, evaluatorOnCourse_rest rfl⟩
  simp [sessionOk, idleOk, State.resetWith]

/-- Settles O38: `State.reset` is one of the reset states, its configuration legal. -/
theorem resetMeetsTheInvariant : Obligations.ResetMeetsTheInvariant :=
  ⟨fun _ ins h => resetWith_invariant h ins, resetWith_invariant elaborated_legal []⟩

end Sys2Proof.Machine
end

section
/-! PROOF. The invariant along every run (10_state.md R40). -/

namespace Sys2Proof.Machine

/-- The session part of the invariant does not look at the evaluator. -/
@[simp] theorem sessionOk_withEv (s : State) (e : Evaluator) :
    sessionOk { s with ev := e } = sessionOk s := rfl

theorem sessionOk_idle {s : State} (h : sessionOk s = true) (hst : s.st = .idle) :
    s.t = 0 ∧ s.pace = 0 ∧ s.lat = 0 ∧ s.sv = false := by
  simpa [sessionOk, hst, idleOk] using h

theorem step_keeps_invariant {s s' : State} (h : invariant s = true) (hstep : step s = .next s') :
    invariant s' = true := by
  obtain ⟨hleg, hsession, -⟩ := (invariant_iff s).1 h
  rw [invariant_iff]
  obtain ⟨hdue, e⟩ | ⟨-, ev', e, hcourse⟩ | ⟨hdue, r, -, e⟩ := step_cases h <;>
    (rw [e] at hstep; cases hstep)
  · exact ⟨by rwa [quietEdge_cfg], quietEdge_sessionOk hleg hsession hdue,
      evaluatorOnCourse_rest (quietEdge_ev s)⟩
  · exact ⟨hleg, by rwa [sessionOk_withEv], hcourse⟩
  · exact ⟨hleg, emissionEdge_sessionOk r hleg hsession hdue,
      evaluatorOnCourse_rest (emissionEdge_ev r s)⟩

/-- Settles O39, by the three cases of a step. -/
theorem stepKeepsTheInvariant : Obligations.StepKeepsTheInvariant :=
  fun _ _ => step_keeps_invariant

theorem step_keeps_cfg {s s' : State} (h : step s = .next s') : s'.cfg = s.cfg := by
  obtain ⟨-, rfl⟩ | ⟨-, ⟨ev, rfl⟩ | ⟨r, rfl⟩⟩ := step_next_cases h
  · exact quietEdge_cfg s
  · rfl
  · exact emissionEdge_cfg r s

/-- What every step keeps, every run of steps keeps. -/
theorem stepRun_induction {P : State → Prop}
    (hP : ∀ {s s' : State}, P s → step s = .next s' → P s') (n : Nat) {s s' : State} (hs : P s)
    (h : stepRun n s = .next s') : P s' := by
  induction n generalizing s with
  | zero =>
    cases h
    exact hs
  | succ n ih =>
    rw [stepRun] at h
    split at h
    · rename_i s₁ h₁
      exact ih (hP hs h₁) h
    · cases h
    · cases h

theorem stepRun_keeps_invariant {n : Nat} {s s' : State} (hs : invariant s = true)
    (h : stepRun n s = .next s') : invariant s' = true :=
  stepRun_induction step_keeps_invariant n hs h

theorem stepRun_keeps_cfg {n : Nat} {s s' : State} (h : stepRun n s = .next s') :
    s'.cfg = s.cfg :=
  stepRun_induction (P := fun s₁ => s₁.cfg = s.cfg) (fun hs h₁ => (step_keeps_cfg h₁).trans hs) n
    rfl h

/-- Settles O41: a run from reset keeps the invariant and the configuration, and the invariant
gives (c), (d) and (e); (a) and (b) are the ranges of the types. -/
theorem reachableStatesMeetTheStatedInvariants :
    Obligations.ReachableStatesMeetTheStatedInvariants := by
  intro c ins n s hleg hrun
  have hcfg : s.cfg = c := stepRun_keeps_cfg hrun
  have hinv := stepRun_keeps_invariant (resetWith_invariant hleg ins) hrun
  obtain ⟨-, hsession, -⟩ := (invariant_iff s).1 hinv
  subst hcfg
  refine ⟨⟨s.accA.is_le, s.accB.is_le, s.idxA.is_le, s.idxB.is_le⟩, sessionCode_ne_three _,
    fun hst => ?_, fun hst => ?_, fun hst ht hlat => ?_⟩
  · obtain ⟨ht, hpace, hlat, -⟩ := sessionOk_idle hsession hst
    exact ⟨ht, hpace, hlat⟩
  · obtain ⟨ht, hlat, hlow, hhigh, -, -⟩ := (renderOk_iff s).1 (sessionOk_render hsession hst).1
    exact ⟨ht, hlat, hlow, hhigh⟩
  · exact renderOk_noUnderrun (sessionOk_render hsession hst).1 ht hlat

end Sys2Proof.Machine
end

section
/-! PROOF. Which edges change the indices, the flags and the sample outputs (10_state.md R25, R31,
R33). -/

namespace Sys2Proof.Machine

@[simp] theorem emissionEdge_idxA (r : Result) (s : State) : (emissionEdge r s).idxA = s.idxA := rfl
@[simp] theorem emissionEdge_idxB (r : Result) (s : State) : (emissionEdge r s).idxB = s.idxB := rfl
@[simp] theorem emissionEdge_sv (r : Result) (s : State) : (emissionEdge r s).sv = true := rfl
@[simp] theorem emissionEdge_sd (r : Result) (s : State) : (emissionEdge r s).sd = r.v := rfl
@[simp] theorem emissionEdge_si (r : Result) (s : State) : (emissionEdge r s).si = s.t := rfl
@[simp] theorem emissionEdge_degen (r : Result) (s : State) :
    (emissionEdge r s).degen = (s.degen || r.dz) := rfl
@[simp] theorem emissionEdge_shamt (r : Result) (s : State) :
    (emissionEdge r s).shamt = (s.shamt || r.sa) := rfl

/-- An edge that emits nothing keeps the indices and the flags; or it is a reset or a session-start
edge and clears the flags. -/
theorem quietEdge_indices_flags (s : State) :
    ((quietEdge s).idxA = s.idxA ∧ (quietEdge s).idxB = s.idxB ∧
      (quietEdge s).degen = s.degen ∧ (quietEdge s).shamt = s.shamt) ∨
    (((portsNow s).rst = true ∨
        (s.st = .idle ∧ byteAccepted s = true ∧ (portsNow s).idLast = true)) ∧
      (quietEdge s).degen = false ∧ (quietEdge s).shamt = false) := by
  obtain ⟨hrst, e⟩ | ⟨-, -, -, e⟩ | ⟨-, -, -, -, e⟩ | ⟨hrst, hst, hvalid, hlast, e⟩ |
    ⟨-, -, -, e⟩ | ⟨-, -, -, e⟩ | ⟨-, -, e⟩ := quietEdge_cases s <;> rw [e]
  case inl => exact .inr ⟨.inl hrst, rfl, rfl⟩
  case inr.inr.inr.inl =>
    exact .inr ⟨.inr ⟨hst, (byteAccepted_iff s).2 ⟨hvalid, hst, hrst⟩, hlast⟩, rfl, rfl⟩
  all_goals exact .inl (by simp)

/-- Without a reset an edge that emits nothing keeps the last sample's outputs. -/
theorem quietEdge_sampleOutputs {s : State} (hrst : (portsNow s).rst = false) :
    (quietEdge s).sd = s.sd ∧ (quietEdge s).si = s.si := by
  obtain ⟨h, -⟩ | ⟨-, -, -, e⟩ | ⟨-, -, -, -, e⟩ | ⟨-, -, -, -, e⟩ | ⟨-, -, -, e⟩ | ⟨-, -, -, e⟩ |
    ⟨-, -, e⟩ := quietEdge_cases s
  case inl => simp [hrst] at h
  all_goals
    rw [e]
    simp

/-- Settles O45: word steps and emission edges keep the indices, and `quietEdge_indices_flags` says
which other edges do not. -/
theorem indicesChangeOnlyAtSessionStart : Obligations.IndicesChangeOnlyAtSessionStart := by
  intro s s' hstep hne
  obtain ⟨-, rfl⟩ | ⟨-, ⟨ev, rfl⟩ | ⟨r, rfl⟩⟩ := step_next_cases hstep
  · obtain ⟨hA, hB, -, -⟩ | ⟨hstart, -, -⟩ := quietEdge_indices_flags s
    · simp [hA, hB] at hne
    · exact hstart
  · simp at hne
  · simp at hne

/-- Settles O46: an emission edge ORs `Combine`'s flags in, and every other edge keeps both flags or
clears both. -/
theorem conditionFlagsAreSticky : Obligations.ConditionFlagsAreSticky := by
  intro s s' hstep
  obtain ⟨hdue, rfl⟩ | ⟨hdue, r, hr, rfl⟩ := clockStep_cases hstep
  · obtain ⟨-, -, hdegen, hshamt⟩ | ⟨hstart, hdegen, hshamt⟩ := quietEdge_indices_flags s
    · rw [hdegen, hshamt]
      exact ⟨by simp +contextual, by simp +contextual, by simp [hdue], by simp⟩
    · exact ⟨by simp [hdegen], by simp [hshamt], by simp [hdue], fun _ =>
        hstart.imp_right fun ⟨hst, hbyte, hlast⟩ =>
          ⟨hst, ((byteAccepted_iff s).1 hbyte).1, hlast⟩⟩
  · rw [emissionEdge_degen, emissionEdge_shamt]
    refine ⟨fun h0 h1 => ⟨hdue, r, hr, by simpa [h0] using h1⟩,
      fun h0 h1 => ⟨hdue, r, hr, by simpa [h0] using h1⟩, fun _ r' hr' => ?_, ?_⟩
    · obtain rfl : r = r' := Option.some.inj (hr.symm.trans hr')
      exact ⟨rfl, rfl⟩
    · rintro (⟨h1, h0⟩ | ⟨h1, h0⟩) <;> simp [h1] at h0

/-- Settles O47: only `emissionEdge` raises `sv` and loads `sd` and `si`. -/
theorem sampleOutputsHold : Obligations.SampleOutputsHold := by
  intro s s' hstep
  obtain ⟨hdue, rfl⟩ | ⟨hdue, r, hr, rfl⟩ := clockStep_cases hstep
  · exact ⟨by simp [hdue], by simp [hdue], fun _ => quietEdge_sampleOutputs⟩
  · refine ⟨by simp [hdue], fun _ r' hr' => ?_, by simp [hdue]⟩
    obtain rfl : r = r' := Option.some.inj (hr.symm.trans hr')
    exact ⟨rfl, rfl⟩

end Sys2Proof.Machine
end

section
/-! PROOF. The formula ROM is constant (R60). -/

namespace Sys2Proof.Machine

/-- Settles O26: a step keeps the configuration (`step_keeps_cfg`), and a ROM word is read from the
configuration alone. -/
theorem romIsConstant : Obligations.RomIsConstant := by
  intro s s' hstep
  have hcfg : s'.cfg = s.cfg := step_keeps_cfg hstep
  exact ⟨hcfg, fun cat i k => by rw [hcfg]⟩

end Sys2Proof.Machine
end

section
/-! PROOF. The decoder against the encoder, and the words no descriptor may hold (30_encoding.md
R71 to R75). -/

namespace Sys2Proof

/-- The decoder inverts the encoder, and nothing else decodes. -/
theorem decode_ok_iff (w : Word) (i : Instr) : decode w = .ok i ↔ w = encode i :=
  (decode_ok_iff_fields w i).trans (fields_eq_iff w i)

/-- Settles O1: the decoder reads the two fields of a word, and the two fields make the word. -/
theorem decodeAgreesWithEncode : Obligations.DecodeAgreesWithEncode := decode_ok_iff

/-- R75: an opcode outside R72's list is reserved. -/
theorem decode_reserved {w : Word}
    (h : w.toNat / 2 ^ 24 ∉
      [0x00, 0x01, 0x02, 0x10, 0x11, 0x12, 0x20, 0x21, 0x22, 0x23, 0x24, 0x30, 0x31]) :
    decode w = .error .reservedOpcode := by
  rw [← opField_toNat] at h
  unfold decode
  split
  case h_14 => rfl
  all_goals
    rename_i hop
    simp [hop] at h

/-- R73, R74: only CONST has an immediate. -/
theorem immOf_eq_zero {i : Instr} (h : opcodeOf i ≠ 0x02) : immOf i = 0 := by
  cases i
  case const => exact absurd rfl h
  all_goals rfl

/-- R74: outside CONST, a word with a non-zero immediate is no instruction. -/
theorem decode_ne_ok_of_imm {w : Word} (hop : w.toNat / 2 ^ 24 ≠ 0x02)
    (himm : w.toNat % 2 ^ 24 ≠ 0) (i : Instr) : decode w ≠ .ok i := by
  intro h
  obtain ⟨ho, hi⟩ := (decode_ok_iff_fields w i).1 h
  have hne : opcodeOf i ≠ 0x02 := by
    intro hc
    rw [← opField_toNat, ho, hc] at hop
    exact hop rfl
  rw [← immField_toNat, hi, immOf_eq_zero hne] at himm
  exact himm rfl

/-- Every word of a well-formed descriptor decodes. -/
theorem descriptorWf_eq_false_of_undecodable {p : Descriptor} {w : Word} (hw : w ∈ p)
    (h : ∀ i, decode w ≠ .ok i) : descriptorWf p = false := by
  rw [← Bool.not_eq_true, descriptorWf_iff]
  rintro ⟨is, rfl, -⟩
  obtain ⟨i, -, hi⟩ := List.mem_map.1 hw
  exact h i ((decode_ok_iff w i).2 hi.symm)

/-- Settles O4: the word decodes to nothing, and so no well-formed descriptor holds it. -/
theorem nonzeroImmediateFailsWf : Obligations.NonzeroImmediateFailsWf := by
  intro p w hw hop himm
  have hdec := decode_ne_ok_of_imm hop himm
  exact ⟨hdec, descriptorWf_eq_false_of_undecodable hw hdec⟩

/-- Settles O2: the words are fixed, and the decoder and the check run on them. -/
theorem specExampleWordsDecode : Obligations.SpecExampleWordsDecode := by
  unfold Obligations.SpecExampleWordsDecode
  decide

end Sys2Proof

namespace Sys2Proof.Machine

/-- R8, R231: a configuration with an ill-formed descriptor is illegal, and the step names E1. -/
theorem refused_of_illFormed {c : Config} {cat : Cat} {i : Fin 7}
    (h : descriptorWf (descriptorOf c cat i) = false) :
    configLegal c = false ∧ ∀ s : State, s.cfg = c → step s = .refused .illegalDescriptor := by
  have hd : descriptorsLegal c = false := by
    rw [← Bool.not_eq_true, descriptorsLegal_iff]
    intro hall
    simp [hall cat i] at h
  refine ⟨by simp [configLegal, hd], ?_⟩
  rintro s rfl
  exact step_of_elaborationRefusal (elaborationRefusal_of_descriptors hd)

/-- Settles O3: the four ranges miss R72's list, so the word decodes to nothing, its descriptor is
ill-formed and the configuration is refused. -/
theorem reservedOpcodesAreRefused : Obligations.ReservedOpcodesAreRefused := by
  intro c cat i w hw hrange
  have hdec : decode w = .error .reservedOpcode := by
    apply decode_reserved
    simp only [List.mem_cons, List.not_mem_nil, or_false]
    omega
  have hwf := descriptorWf_eq_false_of_undecodable hw fun j hj => by simp [hdec] at hj
  exact ⟨hdec, hwf, refused_of_illFormed hwf⟩

end Sys2Proof.Machine
end

section
/-! PROOF. The scan for the first END (30_encoding.md R77). -/

namespace Sys2Proof.Machine

theorem opcodeOf_eq_zero_iff (i : Instr) : opcodeOf i = 0x00 ↔ i = .endOp := by
  cases i <;> simp [opcodeOf]

/-- A scan that may read as many words stops at the first END. -/
theorem scanFrom_words_end {js : List Instr} (hjs : Instr.endOp ∉ js) (dontCare : List Word)
    {n : Nat} (hn : js.length < n) :
    scanFrom n ((js ++ [Instr.endOp]).map encode ++ dontCare) =
      some ((js ++ [Instr.endOp]).map encode) := by
  induction js generalizing n with
  | nil =>
    obtain ⟨n, rfl⟩ := Nat.exists_eq_add_one_of_ne_zero (Nat.ne_zero_of_lt hn)
    simp [scanFrom, opcodeOf]
  | cons j js ih =>
    obtain ⟨n, rfl⟩ := Nat.exists_eq_add_one_of_ne_zero (Nat.ne_zero_of_lt hn)
    obtain ⟨hj, hrest⟩ : .endOp ≠ j ∧ .endOp ∉ js := by simpa using hjs
    have hop : opcodeOf j ≠ 0x00 := fun h => hj ((opcodeOf_eq_zero_iff j).1 h).symm
    have hscan := ih hrest (Nat.lt_of_succ_lt_succ hn)
    simp only [List.cons_append, List.map_cons, scanFrom, opField_encode, if_neg hop, hscan,
      Option.map_some]

/-- Settles O6: a well-formed descriptor is words without END, then END, at most `maxOps` in all. -/
theorem scanFindsTheDescriptor : Obligations.ScanFindsTheDescriptor := by
  intro p dontCare hwf
  obtain ⟨is, rfl, hlen, hcheck⟩ := (descriptorWf_iff p).1 hwf
  obtain ⟨js, rfl, hjs⟩ := checkFrom_last hcheck
  exact scanFrom_words_end hjs dontCare (by simpa using hlen)

end Sys2Proof.Machine
end

section
/-! PROOF. What the words of the pseudo-instructions and of expressions do to a context
(30_encoding.md R82, R83, R84). -/

namespace Sys2Proof.Machine

theorem runWords_const_cons (t : Word) (imm : BitVec 24) (is : List Instr) (c : Ctx) :
    runWords t (.const imm :: is) c =
      runWords t is { c with stack := constOperand imm :: c.stack } := rfl

/-- `runWords_opwOf` with words after the operator. -/
theorem runWords_opwOf_cons (op : BinOp) (t a b : Word) (is : List Instr) (below : List Word)
    (dz sa : Bool) :
    runWords t (opwOf op :: is) ⟨b :: a :: below, dz, sa⟩ =
      runWords t is ⟨opValue op a b :: below,
        dz || (decide (op = .div ∨ op = .mod) && decide (b = 0)),
        sa || (decide (op = .shl ∨ op = .shr) && decide (32 ≤ b.toNat))⟩ := by
  rw [← List.singleton_append, runWords_append, runWords_opwOf, Option.bind_some]

/-- R83: a constant below 2^24 is the immediate of one word. -/
theorem constOperand_low {v : Word} (h : v.toNat < 2 ^ 24) :
    constOperand (v.extractLsb' 0 24) = v := by
  apply BitVec.eq_of_toNat_eq
  simp only [constOperand, BitVec.toNat_setWidth, BitVec.extractLsb'_toNat, Nat.shiftRight_zero]
  omega

/-- R83: the bits 31:8 shifted up by 8, OR-ed with the bits 7:0, are the constant. -/
theorem li32_parts (v : Word) :
    (constOperand (v.extractLsb' 8 24) <<< 8) |||
      constOperand ((v.extractLsb' 0 8).setWidth 24) = v := by
  ext i hi
  simp only [constOperand, BitVec.getElem_or, BitVec.getElem_shiftLeft, BitVec.getElem_setWidth,
    BitVec.getLsbD_setWidth, BitVec.getLsbD_extractLsb']
  by_cases h8 : i < 8
  · have h24 : i < 24 := by omega
    simp [h8, h24, hi]
  · have h24 : i - 8 < 24 := by omega
    have hbit : 8 + (i - 8) = i := by omega
    simp [h8, h24, hbit, hi]

/-- R83: LI32 pushes its constant and leaves the flags. -/
theorem runWords_li32 (t v : Word) (c : Ctx) :
    runWords t (li32 v) c = some { c with stack := v :: c.stack } := by
  by_cases h : v.toNat < 2 ^ 24
  · rw [li32, if_pos h, runWords_const_cons, constOperand_low h, runWords]
  · have hwords : li32 v = [.const (v.extractLsb' 8 24), .const 8, opwOf .shl,
        .const ((v.extractLsb' 0 8).setWidth 24), opwOf .or] := if_neg h
    have hvalue : opValue .or (opValue .shl (constOperand (v.extractLsb' 8 24)) (constOperand 8))
        (constOperand ((v.extractLsb' 0 8).setWidth 24)) = v := li32_parts v
    rw [hwords, runWords_const_cons, runWords_const_cons, runWords_opwOf_cons,
      runWords_const_cons, runWords_opwOf_cons, hvalue]
    simp [runWords, constOperand]

/-- R84: NOT complements the top of the stack and leaves the flags. -/
theorem runWords_notWords (t x : Word) (below : List Word) (dz sa : Bool) :
    runWords t notWords ⟨x :: below, dz, sa⟩ = some ⟨~~~x :: below, dz, sa⟩ := by
  have hwords : notWords = [.const 0, .const 1, opwOf .sub, opwOf .xor] := rfl
  have hones : opValue .sub (constOperand 0) (constOperand 1) = BitVec.allOnes 32 := by decide
  have hnot : opValue .xor x (BitVec.allOnes 32) = ~~~x := BitVec.xor_allOnes
  rw [hwords, runWords_const_cons, runWords_const_cons, runWords_opwOf_cons, hones,
    runWords_opwOf_cons, hnot]
  simp [runWords]

/-- Settles O58: LI32 splits its constant into immediates that make it again, and XOR with the all
ones that 0 - 1 leaves is the complement. -/
theorem pseudoInstructionsExpand : Obligations.PseudoInstructionsExpand := by
  intro t c
  refine ⟨fun v => runWords_li32 t v c, fun x below hstack => ?_⟩
  obtain ⟨stack, dz, sa⟩ := c
  subst hstack
  rw [runWords_notWords, ← BitVec.xor_allOnes]
  rfl

/-- R82: the words of an expression push its value and OR its flags in. -/
theorem runWords_compile (t : Word) (e : Expr) (c : Ctx) :
    runWords t (compile e) c =
      some ⟨(denote t e).v :: c.stack, c.dz || (denote t e).dz, c.sa || (denote t e).sa⟩ := by
  induction e generalizing c with
  | t => simp [compile, denote, runWords, wordEffect, ctxPush]
  | lit v => simp [compile, denote, runWords_li32]
  | not e ih => simp [compile, denote, runWords_append, ih, runWords_notWords]
  | bin op a b iha ihb =>
    simp [compile, denote, runWords_append, iha, ihb, runWords_opwOf, Bool.or_assoc]

/-- Settles O59: from the empty context the words of the expression leave its value and flags, and
END returns them. -/
theorem compiledExpressionsEvaluate : Obligations.CompiledExpressionsEvaluate := by
  intro e t
  have hrun := runWords_compile t e Ctx.empty
  simp only [Ctx.empty, Bool.false_or] at hrun
  rw [expressionWords, evalDescriptor, decodeWords_map_encode]
  exact evalProgram_of_runWords t (compile e) Ctx.empty _ hrun

end Sys2Proof.Machine
end

section
/-! PROOF. What the shared operations of the instructions answer, flag by flag, and that they read
the evaluation context alone (40_formula_ops.md R100, R115). -/

namespace Sys2Proof.Machine

variable {s : State} {a b : Word} {below : List Word}

theorem wordDone_keeps_dz (s : State) (l : List Word) (sa : Bool) :
    wordDone s l false sa = { s with ev := { s.ev with
      stack := l, sa := s.ev.sa || sa, k := s.ev.k + 1 } } := by
  simp [wordDone]

theorem wordDone_keeps_flags (s : State) (l : List Word) :
    wordDone s l false false = { s with ev := { s.ev with stack := l, k := s.ev.k + 1 } } := by
  simp [wordDone]

theorem wordDone_sets_dz (s : State) (l : List Word) :
    wordDone s l true false = { s with ev := { s.ev with
      stack := l, dz := true, k := s.ev.k + 1 } } := by
  simp [wordDone]

/-- A push where there is room for it. -/
theorem pushWord_of_room (v : Word) (h : s.ev.stack.length < stackDepth) :
    pushWord v s = .next { s with ev := { s.ev with
      stack := v :: s.ev.stack, k := s.ev.k + 1 } } :=
  pushWord_next.2 ⟨h, (wordDone_keeps_flags s _).symm⟩

theorem binaryWord_of_stack (f : Word → Word → Word) (dz sa : Word → Word → Bool)
    (h : s.ev.stack = b :: a :: below) :
    binaryWord f dz sa s = .next (wordDone s (f a b :: below) (dz a b) (sa a b)) :=
  binaryWord_next.2 ⟨a, b, below, h, rfl⟩

/-- The bitwise and the wrapping words. -/
theorem binaryWord_noFlag (f : Word → Word → Word) (h : s.ev.stack = b :: a :: below) :
    binaryWord f noFlag noFlag s = .next { s with ev := { s.ev with
      stack := f a b :: below, k := s.ev.k + 1 } } := by
  rw [binaryWord_of_stack f _ _ h, noFlag, wordDone_keeps_flags]

/-- The shifts. -/
theorem binaryWord_wideShift (f : Word → Word → Word) (h : s.ev.stack = b :: a :: below) :
    binaryWord f noFlag wideShift s = .next { s with ev := { s.ev with
      stack := f a b :: below, sa := s.ev.sa || decide (32 ≤ b.toNat), k := s.ev.k + 1 } } := by
  rw [binaryWord_of_stack f _ _ h, noFlag, wordDone_keeps_dz, wideShift]

/-- DIVU and MODU by zero. -/
theorem binaryWord_zeroDivisor (f : Word → Word → Word) (h : s.ev.stack = 0 :: a :: below) :
    binaryWord f zeroDivisor noFlag s = .next { s with ev := { s.ev with
      stack := f a 0 :: below, dz := true, k := s.ev.k + 1 } } := by
  have hzero : zeroDivisor a 0 = true := rfl
  rw [binaryWord_of_stack f _ _ h, hzero, noFlag, wordDone_sets_dz]

/-- DIVU and MODU by a divisor other than zero. -/
theorem binaryWord_nonzeroDivisor (f : Word → Word → Word) (h : s.ev.stack = b :: a :: below)
    (hb : b ≠ 0) :
    binaryWord f zeroDivisor noFlag s = .next { s with ev := { s.ev with
      stack := f a b :: below, k := s.ev.k + 1 } } := by
  have hnonzero : zeroDivisor a b = false := decide_eq_false hb
  rw [binaryWord_of_stack f _ _ h, hnonzero, noFlag, wordDone_keeps_flags]

variable {s₁ s₂ s₁' : State}

theorem pushWord_context {v : Word} (hev : s₁.ev = s₂.ev) (h : pushWord v s₁ = .next s₁') :
    pushWord v s₂ = .next { s₂ with ev := s₁'.ev } := by
  obtain ⟨hroom, rfl⟩ := pushWord_next.1 h
  rw [hev] at hroom
  refine pushWord_next.2 ⟨hroom, ?_⟩
  simp only [wordDone, hev]

theorem binaryWord_context {f : Word → Word → Word} {dz sa : Word → Word → Bool}
    (hev : s₁.ev = s₂.ev) (h : binaryWord f dz sa s₁ = .next s₁') :
    binaryWord f dz sa s₂ = .next { s₂ with ev := s₁'.ev } := by
  obtain ⟨a, b, below, hstack, rfl⟩ := binaryWord_next.1 h
  rw [hev] at hstack
  refine binaryWord_next.2 ⟨a, b, below, hstack, ?_⟩
  simp only [wordDone, hev]

theorem returnResult_context (hev : s₁.ev = s₂.ev) (h : returnResult s₁ = .next s₁') :
    returnResult s₂ = .next { s₂ with ev := s₁'.ev } := by
  obtain ⟨v, below, hstack, rfl⟩ := returnResult_next.1 h
  rw [hev] at hstack
  refine returnResult_next.2 ⟨v, below, hstack, ?_⟩
  simp only [hev]

end Sys2Proof.Machine
end

section
/-! PROOF. Quotient and remainder, the flags and the frame of all instructions
(40_formula_ops.md R100, R114, R115). -/

namespace Sys2Proof.Machine

theorem divuWord_toNat {a b : Word} (hb : b ≠ 0) :
    (divuWord a b).toNat = a.toNat / b.toNat := by
  rw [divuWord_eq, if_neg hb, BitVec.toNat_udiv]

theorem moduWord_toNat {a b : Word} (hb : b ≠ 0) :
    (moduWord a b).toNat = a.toNat % b.toNat := by
  rw [moduWord_eq, if_neg hb, BitVec.toNat_umod]

/-- Settles O17: the two words leave the quotient and the remainder of the naturals. -/
theorem quotientAndRemainderRecompose : Obligations.QuotientAndRemainderRecompose := by
  intro s a b below hstack hb
  have hpos : 0 < b.toNat :=
    Nat.pos_of_ne_zero fun h0 => hb (BitVec.eq_of_toNat_eq h0)
  refine ⟨divuWord a b, moduWord a b, _, _, binaryWord_nonzeroDivisor divuWord hstack hb,
    binaryWord_nonzeroDivisor moduWord hstack hb, rfl, rfl, ?_, ?_⟩
  · rw [divuWord_toNat hb, moduWord_toNat hb, Nat.div_add_mod]
  · rw [moduWord_toNat hb]
    exact Nat.mod_lt _ hpos

/-- R115: every word ORs into the flags, and only the dividing words and the shifts raise one. -/
theorem exec_next_flags {i : Instr} {s s' : State} (h : exec i s = .next s') :
    ∃ dz sa : Bool, s'.ev.dz = (s.ev.dz || dz) ∧ s'.ev.sa = (s.ev.sa || sa) ∧
      (dz = true → i = .divu ∨ i = .modu) ∧ (sa = true → i = .shl ∨ i = .shr) := by
  cases i
  case endOp =>
    obtain ⟨v, below, -, rfl⟩ := returnResult_next.1 h
    exact ⟨false, false, by simp⟩
  case t | const =>
    obtain ⟨-, rfl⟩ := pushWord_next.1 h
    exact ⟨false, false, by simp⟩
  all_goals
    obtain ⟨a, b, below, -, rfl⟩ := binaryWord_next.1 h
    exact ⟨_, _, rfl, rfl, by simp [noFlag], by simp [noFlag]⟩

/-- Settles O18: a flag that is OR-ed into stays set, and changes only where the word raises it. -/
theorem flagsWrittenByOpcode : Obligations.FlagsWrittenByOpcode := by
  refine ⟨fun i s s' h => ?_, fun _ _ => ⟨rfl, rfl⟩⟩
  obtain ⟨dz, sa, hdz, hsa, hdivides, hshifts⟩ := exec_next_flags h
  refine ⟨fun hset => by simp [hdz, hset], fun hset => by simp [hsa, hset],
    fun hne => hdivides ?_, fun hne => hshifts ?_⟩
  · by_contra hdz0
    simp [hdz, hdz0] at hne
  · by_contra hsa0
    simp [hsa, hsa0] at hne

/-- R100: an instruction reads the evaluation context and `t`, and nothing else. -/
theorem exec_context {i : Instr} {s₁ s₂ s₁' : State} (hev : s₁.ev = s₂.ev) (ht : s₁.t = s₂.t)
    (h : exec i s₁ = .next s₁') : exec i s₂ = .next { s₂ with ev := s₁'.ev } := by
  cases i
  case endOp => exact returnResult_context hev h
  case t =>
    have hpush : pushWord s₁.t s₁ = .next s₁' := h
    rw [ht] at hpush
    exact pushWord_context hev hpush
  case const imm => exact pushWord_context hev h
  all_goals exact binaryWord_context hev h

/-- Settles O19: `exec_next_frame` says what is written, `exec_context` what is read; the ROM is
part of the configuration. -/
theorem wordsActOnTheContextAlone : Obligations.WordsActOnTheContextAlone := by
  refine ⟨fun i s s' h => ?_, fun i s₁ s₂ s₁' => exec_context⟩
  obtain ⟨hframe, hphase⟩ := exec_next_frame h
  have hcfg : s'.cfg = s.cfg := by rw [hframe]
  exact ⟨hframe, hphase, fun cat j k => by rw [hcfg]⟩

end Sys2Proof.Machine
end

section
/-! PROOF. The terminator and the leaves (40_formula_ops.md R101 to R103). -/

namespace Sys2Proof.Machine

theorem evalDescriptor_t_endOp (t : Word) :
    evalDescriptor [encode .t, encode .endOp] t = some ⟨t, false, false⟩ := by
  have hwords : decodeWords [encode .t, encode .endOp] = .ok [.t, .endOp] :=
    decodeWords_map_encode [.t, .endOp]
  rw [evalDescriptor, hwords]
  exact evalProgram_of_runWords t [.t] Ctx.empty ⟨[t], false, false⟩ rfl

/-- R141 (2): a well-formed descriptor ends in END. -/
theorem encode_endOp_mem_of_wf {p : Descriptor} (h : descriptorWf p = true) :
    encode .endOp ∈ p := by
  obtain ⟨is, rfl, -, hcheck⟩ := (descriptorWf_iff p).1 h
  obtain ⟨js, rfl, -⟩ := checkFrom_last hcheck
  simp

/-- Settles O7: the one word that pops a single entry; the pass accepts it at depth 1, last. -/
theorem endReturnsTheResult : Obligations.EndReturnsTheResult := by
  refine ⟨by decide, fun s v below hstack => returnResult_next.2 ⟨v, below, hstack, rfl⟩,
    fun d => ?_, fun _ => encode_endOp_mem_of_wf, evalDescriptor_t_endOp⟩
  rw [checkFrom_endOp]
  simp

/-- The machine evaluates only where a sample is due. -/
theorem emissionDue_of_evaluating {s : State} (h : invariant s = true)
    (hphase : s.ev.phase ≠ .rest) : emissionDue s = true := by
  obtain ⟨-, -, hcourse⟩ := (invariant_iff s).1 h
  unfold evaluatorOnCourse at hcourse
  cases hp : s.ev.phase with
  | rest => exact absurd hp hphase
  | formulaA =>
    simp only [hp, Bool.and_eq_true] at hcourse
    exact hcourse.1
  | formulaB ra =>
    simp only [hp, Bool.and_eq_true] at hcourse
    exact hcourse.1.1

/-- Settles O8: a push of `t`; a sample that is due has an index below T, and a legal T is below
2^32. -/
theorem tPushesTheSampleIndex : Obligations.TPushesTheSampleIndex := by
  refine ⟨by decide, fun s hroom => pushWord_of_room s.t hroom, fun s hinv hphase => ?_,
    evalDescriptor_t_endOp⟩
  obtain ⟨hleg, -, -⟩ := (invariant_iff s).1 hinv
  obtain ⟨-, hT, hTmax, -⟩ := legal_parameters hleg
  obtain ⟨-, -, ht, -, -⟩ := (emissionDue_iff s).1 (emissionDue_of_evaluating hinv hphase)
  omega

/-- R73: CONST's operand has the immediate's value. -/
theorem constOperand_eq (imm : BitVec 24) : constOperand imm = BitVec.ofNat 32 imm.toNat :=
  (BitVec.ofNat_toNat 32 imm).symm

/-- Settles O9: the word's fields by `encode_toNat`, and a push of the zero-extended immediate. -/
theorem constPushesItsImmediate : Obligations.ConstPushesItsImmediate := by
  refine fun imm => ⟨encode_toNat (.const imm), fun s hroom => ?_⟩
  rw [← constOperand_eq]
  exact pushWord_of_room (constOperand imm) hroom

end Sys2Proof.Machine
end

section
/-! PROOF. The binary words, one by one (40_formula_ops.md R104 to R113). -/

namespace Sys2Proof.Machine

/-- Settles O10: three binary words that raise no flag. -/
theorem bitwiseWordsCombineBits : Obligations.BitwiseWordsCombineBits :=
  ⟨by decide, by decide, by decide, fun _ _ _ _ hstack =>
    ⟨binaryWord_noFlag andWord hstack, binaryWord_noFlag orWord hstack,
      binaryWord_noFlag xorWord hstack⟩⟩

theorem wrap32_mod (n : Nat) : wrap32 (n % 2 ^ 32) = wrap32 n := by
  apply BitVec.eq_of_toNat_eq
  rw [wrap32_toNat, wrap32_toNat, Nat.mod_mod]

/-- R108: SUB's value is the difference of the integers mod 2^32. -/
theorem subWord_eq_ofInt (a b : Word) :
    subWord a b = BitVec.ofInt 32 (((a.toNat : Int) - (b.toNat : Int)) % 2 ^ 32) := by
  have := b.isLt
  apply BitVec.eq_of_toNat_eq
  rw [subWord, wrap32_toNat, BitVec.toNat_ofInt]
  omega

/-- Settles O11: three binary words that raise no flag, their values reduced mod 2^32. -/
theorem addSubMulWrap : Obligations.AddSubMulWrap := by
  refine ⟨by decide, by decide, by decide, fun s a b below hstack => ⟨?_, ?_, ?_⟩⟩
  · have hvalue : BitVec.ofNat 32 ((a.toNat + b.toNat) % 2 ^ 32) = addWord a b := wrap32_mod _
    rw [hvalue]
    exact binaryWord_noFlag addWord hstack
  · rw [← subWord_eq_ofInt]
    exact binaryWord_noFlag subWord hstack
  · have hvalue : BitVec.ofNat 32 ((a.toNat * b.toNat) % 2 ^ 32) = mulWord a b := wrap32_mod _
    rw [hvalue]
    exact binaryWord_noFlag mulWord hstack

theorem divuWord_of_ne_zero {a b : Word} (hb : b ≠ 0) :
    divuWord a b = BitVec.ofNat 32 (a.toNat / b.toNat) := if_neg hb

theorem moduWord_of_ne_zero {a b : Word} (hb : b ≠ 0) :
    moduWord a b = BitVec.ofNat 32 (a.toNat % b.toNat) := if_neg hb

/-- Settles O12, by whether the divisor is zero. -/
theorem divuDividesOrFlags : Obligations.DivuDividesOrFlags := by
  refine ⟨by decide, fun s a b below hstack => ⟨?_, fun hb => ?_⟩⟩
  · rintro rfl
    exact binaryWord_zeroDivisor divuWord hstack
  · rw [← divuWord_of_ne_zero hb]
    exact binaryWord_nonzeroDivisor divuWord hstack hb

/-- Settles O13, by whether the divisor is zero. -/
theorem moduTakesRemainderOrFlags : Obligations.ModuTakesRemainderOrFlags := by
  refine ⟨by decide, fun s a b below hstack => ⟨?_, fun hb => ?_⟩⟩
  · rintro rfl
    exact binaryWord_zeroDivisor moduWord hstack
  · rw [← moduWord_of_ne_zero hb]
    exact binaryWord_nonzeroDivisor moduWord hstack hb

/-- Settles O14: a shift by `shlWord`, which is the stated product by definition. -/
theorem shlShiftsByAmountMod32 : Obligations.ShlShiftsByAmountMod32 :=
  ⟨by decide, fun _ _ _ _ hstack => binaryWord_wideShift shlWord hstack⟩

/-- Settles O15: a shift by `shrWord`, which is the stated quotient by definition. -/
theorem shrShiftsByAmountMod32 : Obligations.ShrShiftsByAmountMod32 :=
  ⟨by decide, fun _ _ _ _ hstack => binaryWord_wideShift shrWord hstack⟩

end Sys2Proof.Machine
end

section
/-! PROOF. The evaluation of the two formulas, one step a word (41_formula_eval.md R142, R144). -/

namespace Sys2Proof.Machine

theorem runWord_of_decode {cat : Cat} {s : State} {w : Word} {i : Instr}
    (hw : fetchWord cat s = some w) (hi : decode w = .ok i) : runWord cat s = exec i s := by
  simp only [runWord, hw, hi]

/-- Where a sample is due, a step is one of `emissionStep`. -/
theorem step_of_due {s : State} (hleg : configLegal s.cfg = true) (hdue : emissionDue s = true) :
    step s = emissionStep s := by
  rw [step_of_legal hleg, if_pos hdue]

/-- Settles O22: `emissionStep` runs a word of the formula that the phase names, read by the
formula's own index. -/
theorem stepRunsTheDecodedWord : Obligations.StepRunsTheDecodedWord := by
  intro s w i hleg hdue hres hi
  rw [step_of_due hleg hdue]
  refine ⟨fun hphase hw => ?_, fun ra hphase hw => ?_⟩
  all_goals
    simp only [emissionStep, hphase, hres]
    exact runWord_of_decode hw hi

/-- From its beginning, the evaluation of formula A or B takes one step a word to the value of
`Eval`, and only the evaluator changes. -/
theorem stepRun_evaluates {s : State} {cat : Cat} {ph : Phase}
    (hph : (ph = .formulaA ∧ cat = .A) ∨ ((∃ ra, ph = .formulaB ra) ∧ cat = .B))
    (hleg : configLegal s.cfg = true) (hdue : emissionDue s = true)
    (hev : s.ev = Evaluator.start ph) :
    ∃ (r : Result) (s' : State),
      evalDescriptor (descriptorOf s.cfg cat (indexFor s cat)) s.t = some r ∧
      stepRun (descriptorOf s.cfg cat (indexFor s cat)).length s = .next s' ∧
      s' = { s with ev := s'.ev } ∧ s'.ev.phase = ph ∧ s'.ev.result = some r := by
  have hwf := descriptorOf_wf hleg cat (indexFor s cat)
  have hcourse := evalOnCourse_start hwf s.t ph
  rw [← hev] at hcourse
  obtain ⟨n, hlen⟩ := length_pos_of_wf hwf
  have hk : s.ev.k + n + 1 = (descriptorOf s.cfg cat (indexFor s cat)).length := by
    rw [hev, hlen, Evaluator.start, Nat.zero_add]
  obtain ⟨ev', r, hrun, hphase, hresult, hval⟩ :=
    stepRun_words cat ph hph n s hleg hdue (by rw [hev]; rfl) (by rw [hev]; rfl) hcourse hk
  rw [hlen]
  exact ⟨r, _, hval, hrun, rfl, hphase, hresult⟩

/-- Settles O20: every well-formed descriptor has a value, and both formulas reach theirs by
`stepRun_evaluates`. -/
theorem evaluationTakesOneStepAWord : Obligations.EvaluationTakesOneStepAWord :=
  ⟨fun _ t hwf => evalDescriptor_isSome hwf t, fun _ hleg hdue =>
    ⟨stepRun_evaluates (cat := .A) (.inl ⟨rfl, rfl⟩) hleg hdue,
      fun ra => stepRun_evaluates (cat := .B) (.inr ⟨⟨ra, rfl⟩, rfl⟩) hleg hdue⟩⟩

end Sys2Proof.Machine
end

section
/-! PROOF. The well-formedness check is the seven conditions of 41_formula_eval.md R141. -/

namespace Sys2Proof.Machine

theorem encode_op (i : Instr) : (encode i).toNat / 2 ^ 24 = (opcodeOf i).toNat := by
  rw [← opField_toNat, opField_encode]

theorem encode_imm (i : Instr) : (encode i).toNat % 2 ^ 24 = (immOf i).toNat := by
  rw [← immField_toNat, immField_encode]

/-- R72: END is opcode 0. -/
theorem encode_op_eq_zero_iff (i : Instr) : (encode i).toNat / 2 ^ 24 = 0x00 ↔ i = .endOp := by
  rw [encode_op, ← opcodeOf_eq_zero_iff, BitVec.toNat_eq]
  rfl

/-- R72: the opcodes of the leaves. -/
theorem encode_op_leaf_iff (i : Instr) :
    (encode i).toNat / 2 ^ 24 ∈ [0x01, 0x02] ↔ i.pops = 0 := by
  rw [encode_op]
  cases i <;> simp [opcodeOf, Instr.pops]

/-- R72: the opcodes of the binary words. -/
theorem encode_op_binary_iff (i : Instr) :
    (encode i).toNat / 2 ^ 24 ∈ [0x10, 0x11, 0x12, 0x20, 0x21, 0x22, 0x23, 0x24, 0x30, 0x31] ↔
      i.pops = 2 := by
  rw [encode_op]
  cases i <;> simp [opcodeOf, Instr.pops]

theorem encode_op_listed (i : Instr) :
    (encode i).toNat / 2 ^ 24 ∈
      [0x00, 0x01, 0x02, 0x10, 0x11, 0x12, 0x20, 0x21, 0x22, 0x23, 0x24, 0x30, 0x31] := by
  rw [encode_op]
  cases i <;> simp [opcodeOf]

theorem encode_imm_eq_zero {i : Instr} (h : (encode i).toNat / 2 ^ 24 ≠ 0x02) :
    (encode i).toNat % 2 ^ 24 = 0 := by
  have hop : opcodeOf i ≠ 0x02 := fun hc => h (by rw [encode_op, hc]; rfl)
  rw [encode_imm, immOf_eq_zero hop]
  rfl

/-- R141 (3), (4): a listed opcode, with a zero immediate outside CONST, makes an instruction. -/
theorem exists_encode_of_listed {w : Word}
    (hop : w.toNat / 2 ^ 24 ∈
      [0x00, 0x01, 0x02, 0x10, 0x11, 0x12, 0x20, 0x21, 0x22, 0x23, 0x24, 0x30, 0x31])
    (himm : w.toNat / 2 ^ 24 ≠ 0x02 → w.toNat % 2 ^ 24 = 0) : ∃ i, encode i = w := by
  suffices h : ∃ i, decode w = .ok i from h.imp fun i hi => ((decode_ok_iff w i).1 hi).symm
  rw [← opField_toNat] at hop himm
  rw [← immField_toNat] at himm
  unfold decode
  split
  case h_3 => exact ⟨_, rfl⟩
  case h_14 => -- the one arm that answers no instruction: its opcode is none of the listed ones
    simp only [List.mem_cons, List.not_mem_nil, or_false] at hop
    simp_all [BitVec.toNat_eq]
  all_goals
    rename_i hcode
    rw [hcode] at himm
    exact ⟨_, plainWord_ok.2 ⟨rfl, BitVec.eq_of_toNat_eq (himm (by decide))⟩⟩

/-- R141 (2), (5), (6), (7) on decoded words: END stands last and only last, and the words drive
the depths `d`. -/
structure DrivesDepths (is : List Instr) (d : Nat → Nat) : Prop where
  nonempty : is ≠ []
  end_last : ∀ k i, is[k]? = some i → (i = .endOp ↔ k + 1 = is.length)
  leaf : ∀ k i, is[k]? = some i → i.pops = 0 → d (k + 1) = d k + 1
  binary : ∀ k i, is[k]? = some i → i.pops = 2 → 2 ≤ d k ∧ d (k + 1) = d k - 1
  bounded : ∀ k, k < is.length → d k ≤ stackDepth
  final : d (is.length - 1) = 1

theorem DrivesDepths.bounded_head {is : List Instr} {d : Nat → Nat} (h : DrivesDepths is d) :
    d 0 ≤ stackDepth := h.bounded 0 (List.length_pos_iff.2 h.nonempty)

/-- A statement about every word of `i :: is` is one about `i` and one about every word of `is`. -/
theorem forall_getElem?_cons {α : Type} {P : Nat → α → Prop} {a : α} {l : List α} :
    (∀ k x, (a :: l)[k]? = some x → P k x) ↔
      P 0 a ∧ ∀ k x, l[k]? = some x → P (k + 1) x := by
  constructor
  · intro h
    exact ⟨h 0 a rfl, fun k x hx => h (k + 1) x hx⟩
  · rintro ⟨h0, hs⟩ (_ | k) x hx
    · cases hx
      exact h0
    · exact hs k x hx

theorem drivesDepths_endOp {rest : List Instr} {d : Nat → Nat} :
    DrivesDepths (.endOp :: rest) d ↔ rest = [] ∧ d 0 = 1 := by
  constructor
  · intro h
    obtain rfl : rest = [] := by simpa using (h.end_last 0 .endOp rfl).1 rfl
    exact ⟨rfl, h.final⟩
  · rintro ⟨rfl, h0⟩
    refine ⟨by simp, ?_, ?_, ?_, ?_, h0⟩
    all_goals simp [forall_getElem?_cons, Instr.pops, h0, stackDepth]

theorem drivesDepths_cons {i : Instr} (hi : i ≠ .endOp) {rest : List Instr} {d : Nat → Nat} :
    DrivesDepths (i :: rest) d ↔
      (i.pops = 0 → d 1 = d 0 + 1) ∧ (i.pops = 2 → 2 ≤ d 0 ∧ d 1 = d 0 - 1) ∧
        d 0 ≤ stackDepth ∧ DrivesDepths rest fun k => d (k + 1) := by
  constructor
  · rintro ⟨-, hend, hleaf, hbinary, hbound, hfinal⟩
    have hne : rest ≠ [] := by
      rintro rfl
      exact hi ((hend 0 i rfl).2 rfl)
    rw [forall_getElem?_cons] at hend hleaf hbinary
    refine ⟨hleaf.1, hbinary.1, hbound 0 (by simp), hne, ?_, hleaf.2, hbinary.2, ?_, ?_⟩
    · simpa using hend.2
    · exact fun k hk => hbound (k + 1) (by simpa using hk)
    · rwa [Nat.sub_add_cancel (List.length_pos_iff.2 hne)]
  · rintro ⟨hleaf, hbinary, h0, hne, hend, hleafs, hbinaries, hbound, hfinal⟩
    have hpos := List.length_pos_iff.2 hne
    refine ⟨by simp, ?_, forall_getElem?_cons.2 ⟨hleaf, hleafs⟩,
      forall_getElem?_cons.2 ⟨hbinary, hbinaries⟩, ?_, ?_⟩
    · exact forall_getElem?_cons.2 ⟨by simp [hi, hne], by simpa using hend⟩
    · rintro (_ | k) hk
      · exact h0
      · exact hbound k (by simpa using hk)
    · rwa [Nat.sub_add_cancel hpos] at hfinal

/-- The depths `e` after a word at depth `n`. -/
def depthThen (n : Nat) (e : Nat → Nat) : Nat → Nat
  | 0 => n
  | k + 1 => e k

/-- The pass accepts words from a depth iff they drive a depth sequence from it. -/
theorem checkFrom_iff_drivesDepths {n : Nat} (hn : n ≤ stackDepth) (is : List Instr) :
    checkFrom n is = .ok () ↔ ∃ d : Nat → Nat, d 0 = n ∧ DrivesDepths is d := by
  induction is generalizing n with
  | nil =>
    simp only [checkFrom, reduceCtorEq, false_iff]
    rintro ⟨d, -, hd⟩
    exact hd.nonempty rfl
  | cons i rest ih =>
    rcases pops_cases i with rfl | hi | hi
    · rw [checkFrom_endOp]
      constructor
      · rintro ⟨rfl, rfl⟩
        exact ⟨fun _ => 1, rfl, drivesDepths_endOp.2 ⟨rfl, rfl⟩⟩
      · rintro ⟨d, rfl, hd⟩
        exact drivesDepths_endOp.1 hd
    · have hne := ne_endOp_of_pops (by omega : i.pops ≠ 1)
      rw [checkFrom_leaf hi]
      constructor
      · rintro ⟨hroom, hrest⟩
        obtain ⟨e, he, hd⟩ := (ih hroom).1 hrest
        exact ⟨depthThen n e, rfl,
          (drivesDepths_cons hne).2 ⟨fun _ => he, fun h => by omega, hn, hd⟩⟩
      · rintro ⟨d, rfl, hd⟩
        obtain ⟨hleaf, -, -, hrest⟩ := (drivesDepths_cons hne).1 hd
        have hroom : d 0 + 1 ≤ stackDepth := hleaf hi ▸ hrest.bounded_head
        exact ⟨hroom, (ih hroom).2 ⟨_, hleaf hi, hrest⟩⟩
    · have hne := ne_endOp_of_pops (by omega : i.pops ≠ 1)
      have hless : n - 1 ≤ stackDepth := by omega
      rw [checkFrom_binary hi]
      constructor
      · rintro ⟨htwo, hrest⟩
        obtain ⟨e, he, hd⟩ := (ih hless).1 hrest
        exact ⟨depthThen n e, rfl,
          (drivesDepths_cons hne).2 ⟨fun h => by omega, fun _ => ⟨htwo, he⟩, hn, hd⟩⟩
      · rintro ⟨d, rfl, hd⟩
        obtain ⟨-, hbinary, -, hrest⟩ := (drivesDepths_cons hne).1 hd
        obtain ⟨htwo, hpop⟩ := hbinary hi
        exact ⟨htwo, (ih hless).2 ⟨_, hpop, hrest⟩⟩

/-- Words that are each an instruction's are a program's. -/
theorem exists_map_encode {p : Descriptor} (h : ∀ w ∈ p, ∃ i, encode i = w) :
    ∃ is : List Instr, is.map encode = p := by
  rwa [← Set.mem_range, Set.range_list_map]

theorem forall_getElem?_map_encode {is : List Instr} {P : Nat → Word → Prop} :
    (∀ k w, (is.map encode)[k]? = some w → P k w) ↔
      ∀ k i, is[k]? = some i → P k (encode i) := by
  simp

/-- Settles O5: words that satisfy (3) and (4) are a program's, and the pass accepts the program iff
it drives depths as (2), (5), (6) and (7) ask. -/
theorem wfIsTheSevenConditions : Obligations.WfIsTheSevenConditions := by
  refine ⟨fun _ _ _ => refused_of_illFormed, fun p => ?_⟩
  have hzero : 0 ≤ stackDepth := Nat.zero_le _
  rw [descriptorWf_iff]
  constructor
  · rintro ⟨is, rfl, hlen, hcheck⟩
    obtain ⟨d, h0, hd⟩ := (checkFrom_iff_drivesDepths hzero is).1 hcheck
    obtain ⟨hne, hend, hleaf, hbinary, hbound, hfinal⟩ := hd
    rw [List.length_map]
    exact ⟨⟨List.length_pos_iff.2 hne, hlen⟩, forall_getElem?_map_encode.2 fun k i hi =>
        (encode_op_eq_zero_iff i).trans (hend k i hi),
      List.forall_mem_map.2 fun i _ => encode_op_listed i,
      List.forall_mem_map.2 fun i _ => encode_imm_eq_zero, d, h0,
      forall_getElem?_map_encode.2 fun k i hi hop => hleaf k i hi ((encode_op_leaf_iff i).1 hop),
      forall_getElem?_map_encode.2 fun k i hi hop =>
        hbinary k i hi ((encode_op_binary_iff i).1 hop), hbound, hfinal⟩
  · rintro ⟨⟨hpos, hlen⟩, hend, hop, himm, d, h0, hleaf, hbinary, hbound, hfinal⟩
    obtain ⟨is, rfl⟩ :=
      exists_map_encode fun w hw => exists_encode_of_listed (hop w hw) (himm w hw)
    rw [forall_getElem?_map_encode] at hend hleaf hbinary
    rw [List.length_map] at hpos hlen hend hbound hfinal
    exact ⟨is, rfl, hlen, (checkFrom_iff_drivesDepths hzero is).2 ⟨d, h0,
      List.length_pos_iff.1 hpos, fun k i hi => (encode_op_eq_zero_iff i).symm.trans (hend k i hi),
      fun k i hi hpops => hleaf k i hi ((encode_op_leaf_iff i).2 hpops),
      fun k i hi hpops => hbinary k i hi ((encode_op_binary_iff i).2 hpops), hbound, hfinal⟩⟩

end Sys2Proof.Machine
end

section
/-! PROOF. The selection function (42_selector.md R174, R175, R180). -/

namespace Sys2Proof.Machine

/-- Settles O50, by `nibbleSums`: the even positions hold the high nibbles, the odd ones the low. -/
theorem selectSumsTheNibbles : Obligations.SelectSumsTheNibbles := by
  intro id
  obtain ⟨heven, hodd⟩ := nibbleSums id
  rw [← heven, ← hodd]
  exact ⟨rfl, rfl⟩

/-- Settles O52: the closed form is a pair of sums, and a sum ignores the order of its terms. -/
theorem selectionIgnoresByteOrder : Obligations.SelectionIgnoresByteOrder := by
  intro id id' hperm
  obtain ⟨hA, hB⟩ := selectSumsTheNibbles id
  obtain ⟨hA', hB'⟩ := selectSumsTheNibbles id'
  apply Prod.ext <;> apply Fin.ext
  · rw [hA, hA', (hperm.map _).sum_eq]
  · rw [hB, hB', (hperm.map _).sum_eq]

/-- R176's reason: one more byte adds its nibbles to the residues. -/
theorem select_concat (id : List Byte) (x : Byte) :
    select (id ++ [x]) = (addResidue (select id).1 (highNibble x),
      addResidue (select id).2 (lowNibble x)) := by
  obtain ⟨hA, hB⟩ := selectSumsTheNibbles id
  obtain ⟨hA', hB'⟩ := selectSumsTheNibbles (id ++ [x])
  rw [addResidue_highNibble, addResidue_lowNibble]
  apply Prod.ext <;> apply Fin.ext
  · simp [hA, hA']
  · simp [hB, hB']

end Sys2Proof.Machine
end

section
/-! PROOF. The edges that accept an identifier byte (42_selector.md R172, R173). -/

namespace Sys2Proof.Machine

theorem countByte_toNat (cnt : BitVec 8) : (countByte cnt).toNat = min (cnt.toNat + 1) 255 := by
  rw [countByte, idCntMax, BitVec.toNat_ofNat]
  omega

theorem nonstandard_eq (n : BitVec 8) :
    nonstandard n = decide (n.toNat ≠ 4 ∧ n.toNat ≠ 7) := by
  simp [nonstandard, BitVec.toNat_eq]

theorem idleEdge_noByte {p : PortIn} (s : State) (hvalid : p.idValid = false) :
    idleEdge p s = s := by
  simp [idleEdge, hvalid]

theorem idleEdge_nonLastByte {p : PortIn} (s : State) (hvalid : p.idValid = true)
    (hlast : p.idLast = false) : idleEdge p s = acceptByte p.idData s := by
  simp [idleEdge, hvalid, hlast]

theorem idleEdge_lastByte {p : PortIn} (s : State) (hvalid : p.idValid = true)
    (hlast : p.idLast = true) : idleEdge p s = startSession p.idData s := by
  simp [idleEdge, hvalid, hlast]

theorem quietEdge_idle {s : State} (hrst : (portsNow s).rst = false) (hst : s.st = .idle) :
    quietEdge s = idleEdge (portsNow s) (beginEdge s) := by
  simp [quietEdge, hrst, hst]

theorem emissionDue_of_idle {s : State} (hst : s.st = .idle) : emissionDue s = false :=
  emissionDue_of_st (by simp [hst])

theorem step_idle {s : State} (hleg : configLegal s.cfg = true) (hrst : (portsNow s).rst = false)
    (hst : s.st = .idle) : step s = .next (idleEdge (portsNow s) (beginEdge s)) := by
  rw [step_quiet hleg (emissionDue_of_idle hst), quietEdge_idle hrst hst]

theorem clockStep_idle {s : State} (hrst : (portsNow s).rst = false) (hst : s.st = .idle) :
    clockStep s = some (idleEdge (portsNow s) (beginEdge s)) := by
  rw [clockStep_quiet (emissionDue_of_idle hst), quietEdge_idle hrst hst]

/-- Settles O29: the edge is `acceptByte`, its nibbles a quotient and a remainder by 16. -/
theorem nonLastByteAccumulates : Obligations.NonLastByteAccumulates := by
  intro s hleg hrst hst hvalid hlast
  rw [step_idle hleg hrst hst, idleEdge_nonLastByte _ hvalid hlast, ← addResidue_highNibble,
    ← addResidue_lowNibble]
  rfl

/-- Settles O30: the edge is `startSession`, and the counter's 8 bits hold the saturated count. -/
theorem lastByteStartsTheSession : Obligations.LastByteStartsTheSession := by
  rintro s n hleg hrst hst hvalid hlast rfl
  rw [step_idle hleg hrst hst, idleEdge_lastByte _ hvalid hlast, ← addResidue_highNibble,
    ← addResidue_lowNibble, ← countByte_toNat, ← nonstandard_eq, BitVec.ofNat_toNat,
    BitVec.setWidth_eq]
  rfl

end Sys2Proof.Machine
end

section
/-! PROOF. The byte-serial registers against the selection function (42_selector.md R176, R177). -/

namespace Sys2Proof.Machine

/-- The selector waits in IDLE after the bytes `taken` of an identifier in progress: the residues
are the selection of these bytes, the counter their saturated number. -/
structure HasTaken (taken : List Byte) (s : State) : Prop where
  idle : s.st = .idle
  residues : (s.accA, s.accB) = select taken
  count : s.idCnt.toNat = min taken.length 255

/-- The state right after the session-start edge of `id` (R173, R195). -/
structure StartedWith (id : List Byte) (s : State) : Prop where
  indices : (s.idxA, s.idxB) = select id
  length : s.idLen.toNat = min id.length 255
  nonstd : s.nonstd = true ↔ id.length ≠ 4 ∧ id.length ≠ 7
  started : sessionStarted s = true

theorem hasTaken_nil {s : State} (hst : s.st = .idle) (hA : s.accA = 0) (hB : s.accB = 0)
    (hcnt : s.idCnt = 0) : HasTaken [] s :=
  ⟨hst, by rw [hA, hB]; rfl, by rw [hcnt]; rfl⟩

theorem sessionStarted_render {s : State} (h : sessionStarted s = true) : s.st = .render := by
  rw [sessionStarted, decide_eq_true_iff] at h
  exact h.1

theorem sessionStarted_startSession_beginEdge (x : Byte) (s : State) :
    sessionStarted (startSession x (beginEdge s)) = true := by
  simp [sessionStarted]

section
variable {taken : List Byte} {s : State} (h : HasTaken taken s)
include h

theorem HasTaken.residues_concat (x : Byte) :
    (addResidue s.accA (highNibble x), addResidue s.accB (lowNibble x)) =
      select (taken ++ [x]) := by
  rw [select_concat, ← h.residues]

theorem HasTaken.count_concat (x : Byte) :
    (countByte s.idCnt).toNat = min (taken ++ [x]).length 255 := by
  rw [countByte_toNat, h.count, List.length_append, List.length_singleton]
  omega

theorem HasTaken.after_beginEdge : HasTaken taken (beginEdge s) :=
  ⟨h.idle, h.residues, h.count⟩

theorem HasTaken.after_acceptByte (x : Byte) : HasTaken (taken ++ [x]) (acceptByte x s) :=
  ⟨h.idle, h.residues_concat x, h.count_concat x⟩

/-- Saturation does not hide the lengths 4 and 7. -/
theorem HasTaken.startedWith (x : Byte) :
    StartedWith (taken ++ [x]) (startSession x (beginEdge s)) where
  indices := h.residues_concat x
  length := h.count_concat x
  nonstd := by
    rw [startSession_nonstd, beginEdge_idCnt, nonstandard_eq, h.count_concat x, decide_eq_true_iff]
    omega
  started := sessionStarted_startSession_beginEdge x s

end

/-- A cycle of a source with a byte left: no offer, or that byte, marked if it is the last. -/
theorem deliversIdentifier_cons {x : Byte} {id : List Byte} {p : PortIn} {ps : List PortIn}
    (h : deliversIdentifier (x :: id) (p :: ps) = true) :
    p.rst = false ∧
      ((p.idValid = false ∧ deliversIdentifier (x :: id) ps = true) ∨
        (p.idValid = true ∧ p.idData = x ∧ p.idLast = id.isEmpty ∧
          deliversIdentifier id ps = true)) := by
  rw [deliversIdentifier] at h
  split at h
  · cases h
  · rename_i hrst
    refine ⟨by simpa using hrst, ?_⟩
    split at h
    · rename_i hvalid
      simp only [Bool.and_eq_true, decide_eq_true_eq, beq_iff_eq] at h
      obtain ⟨⟨hdata, hlast⟩, hrest⟩ := h
      exact .inr ⟨hvalid, hdata, hlast, hrest⟩
    · rename_i hvalid
      exact .inl ⟨by simpa using hvalid, h⟩

/-- After the last byte the source's cycles are over. -/
theorem deliversIdentifier_nil {ps : List PortIn} (h : deliversIdentifier [] ps = true) :
    ps = [] := by
  cases ps with
  | nil => rfl
  | cons p ps => cases h

/-- The bytes still to come, delivered at any cycles, start the session of the whole identifier. -/
theorem clockRun_delivers {id taken : List Byte} {ps rest : List PortIn} {s : State}
    (hid : id ≠ []) (hs : HasTaken taken s) (hdel : deliversIdentifier id ps = true)
    (hin : s.inputs = ps ++ rest) :
    ∃ s', clockRun ps.length s = some s' ∧ s'.inputs = rest ∧ StartedWith (taken ++ id) s' := by
  induction ps generalizing id taken s with
  | nil =>
    cases id with
    | nil => exact absurd rfl hid
    | cons x id => cases hdel
  | cons p ps ih =>
    obtain ⟨x, id, rfl⟩ := List.exists_cons_of_ne_nil hid
    have hp : portsNow s = p := by rw [portsNow, hin]; rfl
    have hin' : (beginEdge s).inputs = ps ++ rest := by rw [beginEdge_inputs, hin]; rfl
    obtain ⟨hrst, hcycle⟩ := deliversIdentifier_cons hdel
    have hstep := clockStep_idle (hp ▸ hrst) hs.idle
    rw [hp] at hstep
    rw [List.length_cons, clockRun_succ _ hstep]
    obtain ⟨hvalid, hrest⟩ | ⟨hvalid, rfl, hlast, hrest⟩ := hcycle
    · rw [idleEdge_noByte _ hvalid]
      exact ih hid hs.after_beginEdge hrest hin'
    · cases id with
      | nil =>
        obtain rfl := deliversIdentifier_nil hrest
        rw [idleEdge_lastByte _ hvalid hlast]
        exact ⟨_, rfl, hin', hs.startedWith p.idData⟩
      | cons y id =>
        rw [idleEdge_nonLastByte _ hvalid hlast]
        have htaken := hs.after_beginEdge.after_acceptByte p.idData
        have hnext := ih (List.cons_ne_nil y id) htaken hrest hin'
        rwa [List.append_assoc] at hnext

/-- Settles O51: `clockRun_delivers` from no byte taken. -/
theorem registersComputeTheSelection : Obligations.RegistersComputeTheSelection := by
  intro s id ps rest hid hst hA hB hcnt hdel hin
  obtain ⟨s', hrun, hrest, hstart⟩ :=
    clockRun_delivers hid (hasTaken_nil hst hA hB hcnt) hdel hin
  exact ⟨s', hrun, sessionStarted_render hstart.started, hrest, hstart.indices, hstart.length,
    hstart.nonstd, hstart.started⟩

end Sys2Proof.Machine
end

section
/-! PROOF. The steps of one clock cycle and the edge they make (43_renderer.md R191, R200). -/

namespace Sys2Proof.Machine

section
variable {s : State} (hleg : configLegal s.cfg = true) (hdue : emissionDue s = true)
include hleg hdue

theorem step_begins_formulaA (hphase : s.ev.phase = .rest) :
    step s = .next (beginFormula .formulaA s) := by
  simp only [step_of_due hleg hdue, emissionStep, hphase]

theorem step_begins_formulaB {ra : Result} (hphase : s.ev.phase = .formulaA)
    (hres : s.ev.result = some ra) : step s = .next (beginFormula (.formulaB ra) s) := by
  simp only [step_of_due hleg hdue, emissionStep, hphase, hres]

theorem step_emits {ra rb : Result} (hphase : s.ev.phase = .formulaB ra)
    (hres : s.ev.result = some rb) :
    step s = .next (emissionEdge (combineResults ra rb) s) := by
  simp only [step_of_due hleg hdue, emissionStep, hphase, hres]

/-- R144: once begun, a formula takes one step a word to its value; only the evaluator changes. -/
theorem stepRun_formula {cat : Cat} {ph : Phase}
    (hph : (ph = .formulaA ∧ cat = .A) ∨ ((∃ ra, ph = .formulaB ra) ∧ cat = .B)) :
    ∃ (r : Result) (ev : Evaluator),
      evalDescriptor (descriptorOf s.cfg cat (indexFor s cat)) s.t = some r ∧
      stepRun (descriptorOf s.cfg cat (indexFor s cat)).length (beginFormula ph s) =
        .next { s with ev := ev } ∧
      ev.phase = ph ∧ ev.result = some r := by
  obtain ⟨r, s', hval, hrun, hframe, hphase, hres⟩ :=
    stepRun_evaluates (s := beginFormula ph s) hph hleg hdue rfl
  rw [hframe] at hrun
  exact ⟨r, s'.ev, hval, hrun, hphase, hres⟩

/-- A cycle whose sample is due: A begins, A's words, B begins, B's words, the emission edge. -/
theorem stepRun_cycle_due (hphase : s.ev.phase = .rest) :
    ∃ r, combine s.cfg s.idxA s.idxB s.t = some r ∧
      stepRun (cycleSteps s) s = .next (emissionEdge r s) := by
  obtain ⟨ra, evA, hvalA, hrunA, hphA, hresA⟩ :=
    stepRun_formula (cat := .A) hleg hdue (.inl ⟨rfl, rfl⟩)
  obtain ⟨rb, evB, hvalB, hrunB, hphB, hresB⟩ :=
    stepRun_formula (cat := .B) hleg hdue (.inr ⟨⟨ra, rfl⟩, rfl⟩)
  have hbeginA := step_begins_formulaA hleg hdue hphase
  have hbeginB := step_begins_formulaB (s := { s with ev := evA }) hleg hdue hphA hresA
  have hemit := step_emits (s := { s with ev := evB }) hleg hdue hphB hresB
  have hsteps : cycleSteps s = (descriptorOf s.cfg .A (indexFor s .A)).length +
      ((descriptorOf s.cfg .B (indexFor s .B)).length + (0 + 1) + 1) + 1 := by
    simp only [cycleSteps, hdue, if_true, indexFor]
    omega
  refine ⟨combineResults ra rb, combine_eq hvalA hvalB, ?_⟩
  rw [hsteps, stepRun_succ _ hbeginA, stepRun_add _ _ hrunA, stepRun_succ _ hbeginB]
  exact (stepRun_add _ _ hrunB).trans (stepRun_succ _ hemit)

end

theorem stepRun_cycle_quiet {s : State} (hleg : configLegal s.cfg = true)
    (hdue : emissionDue s = false) : stepRun (cycleSteps s) s = .next (quietEdge s) := by
  have hsteps : cycleSteps s = 0 + 1 := by simp [cycleSteps, hdue]
  rw [hsteps, stepRun_succ _ (step_quiet hleg hdue)]
  rfl

/-- Settles O42, by whether the cycle's sample is due; that steps keep the invariant gives its last
part. -/
theorem wordStepsRefineTheClockEdge : Obligations.WordStepsRefineTheClockEdge := by
  intro s hinv hrest
  obtain ⟨hleg, -, -⟩ := (invariant_iff s).1 hinv
  have hev : s.ev = Evaluator.rest := of_decide_eq_true hrest
  cases hdue : emissionDue s with
  | false =>
    have hrun := stepRun_cycle_quiet hleg hdue
    exact ⟨_, clockStep_quiet hdue, hrun, decide_eq_true (quietEdge_ev s),
      stepRun_keeps_invariant hinv hrun⟩
  | true =>
    obtain ⟨r, hr, hrun⟩ := stepRun_cycle_due hleg hdue (by rw [hev]; rfl)
    exact ⟨_, clockStep_due hdue hr, hrun, decide_eq_true (emissionEdge_ev r s),
      stepRun_keeps_invariant hinv hrun⟩

/-- In the middle of formula B, formula A's value is the one that the phase carries. -/
theorem evaluating_formulaB {s : State} {ra : Result} (h : invariant s = true)
    (hphase : s.ev.phase = .formulaB ra) :
    evalDescriptor (descriptorOf s.cfg .A s.idxA) s.t = some ra ∧
      evalOnCourse (descriptorOf s.cfg .B s.idxB) s.t s.ev = true := by
  obtain ⟨-, -, hcourse⟩ := (invariant_iff s).1 h
  simp only [evaluatorOnCourse, hphase, Bool.and_eq_true, decide_eq_true_eq] at hcourse
  exact ⟨hcourse.1.2, hcourse.2⟩

theorem evalOnCourse_returned {p : Descriptor} {t : Word} {ev : Evaluator} {r : Result}
    (hres : ev.result = some r) (h : evalOnCourse p t ev = true) : evalDescriptor p t = some r := by
  simpa [evalOnCourse, hres] using h

/-- Settles O23: the three steps around the words; under the invariant the two results that the
evaluator holds are the formulas' values. -/
theorem stepSequencesTheFormulas : Obligations.StepSequencesTheFormulas := by
  refine ⟨fun s hleg hdue => ⟨step_begins_formulaA hleg hdue,
    fun ra => step_begins_formulaB hleg hdue⟩, fun s ra rb hinv hphase hres => ?_⟩
  obtain ⟨hleg, -, -⟩ := (invariant_iff s).1 hinv
  have hdue : emissionDue s = true := emissionDue_of_evaluating hinv (by simp [hphase])
  obtain ⟨hvalA, hcourse⟩ := evaluating_formulaB hinv hphase
  have hcombine := combine_eq hvalA (evalOnCourse_returned hres hcourse)
  exact ⟨hdue, _, step_emits hleg hdue hphase hres, clockStep_due hdue hcombine, hcombine⟩

/-- Settles O21: `combineResults` is the wrapped sum, and the emission edge loads all of it. -/
theorem combinerAddsAndOrs : Obligations.CombinerAddsAndOrs := by
  refine ⟨fun _ _ => rfl, fun c ia ib t va vb dza saa dzb sab ha hb => ?_⟩
  have hsum : BitVec.ofNat 32 ((va.toNat + vb.toNat) % 2 ^ 32) = wrap32 (va.toNat + vb.toNat) :=
    wrap32_mod _
  rw [combine_eq ha hb, hsum]
  rfl

end Sys2Proof.Machine
end

section
/-! PROOF. The renderer's edges one by one (43_renderer.md R196 to R199), and IDLE's without an
offer (R200). -/

namespace Sys2Proof.Machine

/-- Settles O31: without an offer `idleEdge` does nothing, and `beginEdge` clears `sv`. -/
theorem idleWaitsForAByte : Obligations.IdleWaitsForAByte := by
  intro s hleg hrst hst hvalid
  rw [step_idle hleg hrst hst, idleEdge_noByte _ hvalid]
  rfl

theorem wrap32_toNat_succ (t : Word) : wrap32 (t.toNat + 1) = t + 1 := addWord_eq t 1

/-- Settles O32: the edge is `emissionEdge` with the value that `combine_isSome` gives, and `t`
counts on. -/
theorem emissionEdgeEmitsTheSample : Obligations.EmissionEdgeEmitsTheSample := by
  intro s hleg hrst hst ht hlat hpace
  have hdue : emissionDue s = true := (emissionDue_iff s).2 ⟨hrst, hst, ht, hlat, hpace⟩
  obtain ⟨r, hr⟩ := combine_isSome hleg s.idxA s.idxB s.t
  refine ⟨r, hr, ?_⟩
  rw [clockStep_due hdue hr, ← wrap32_toNat_succ]
  rfl

section
variable {s : State}

theorem emissionDue_of_waiting (h : s.lat ≠ 0 ∨ s.pace < 0) : emissionDue s = false := by
  rw [← Bool.not_eq_true, emissionDue_iff]
  rintro ⟨-, -, -, hlat, hpace⟩
  omega

theorem emissionDue_of_allEmitted (h : tSamples s.cfg ≤ s.t.toNat) : emissionDue s = false := by
  rw [← Bool.not_eq_true, emissionDue_iff]
  rintro ⟨-, -, ht, -, -⟩
  omega

theorem quietEdge_reset (hrst : (portsNow s).rst = true) :
    quietEdge s = resetEdge (beginEdge s) := if_pos hrst

theorem quietEdge_waiting (hrst : (portsNow s).rst = false) (hst : s.st = .render)
    (ht : s.t.toNat < tSamples s.cfg) : quietEdge s = waitEdge (beginEdge s) := by
  simp [quietEdge, hrst, hst, ht]

theorem quietEdge_final (hrst : (portsNow s).rst = false) (hst : s.st = .render)
    (ht : tSamples s.cfg ≤ s.t.toNat) : quietEdge s = finalEdge (beginEdge s) := by
  simp [quietEdge, hrst, hst, Nat.not_lt.2 ht]

theorem quietEdge_done (hrst : (portsNow s).rst = false) (hst : s.st = .done) :
    quietEdge s = doneEdge (beginEdge s) := by
  simp [quietEdge, hrst, hst]

theorem finalEdge_deadline (h : 0 ≤ s.pace) : finalEdge s = { s with st := .done } := if_pos h

theorem finalEdge_waiting (h : s.pace < 0) :
    finalEdge s = { s with pace := s.pace + (s.cfg.sampleRate : Int) } := if_neg (not_le.2 h)

end

/-- Settles O33: no sample is due, so the edge is `waitEdge`. -/
theorem waitingEdgeCountsDown : Obligations.WaitingEdgeCountsDown := by
  intro s hleg hrst hst ht hwait
  rw [step_quiet hleg (emissionDue_of_waiting hwait), quietEdge_waiting hrst hst ht]
  rfl

/-- Settles O34, by whether the final deadline has come. -/
theorem finalPeriodEndsInDone : Obligations.FinalPeriodEndsInDone := by
  intro s hleg hrst hst ht
  rw [step_quiet hleg (emissionDue_of_allEmitted ht.ge), quietEdge_final hrst hst ht.ge]
  refine ⟨fun hpace => ?_, fun hpace => ?_⟩
  · rw [finalEdge_deadline (s := beginEdge s) hpace]
    rfl
  · rw [finalEdge_waiting (s := beginEdge s) hpace]
    rfl

theorem emissionDue_of_done {s : State} (hst : s.st = .done) : emissionDue s = false :=
  emissionDue_of_st (by simp [hst])

/-- Settles O35: no sample is due in DONE, so the edge is `doneEdge`. -/
theorem doneEdgeReturnsToIdle : Obligations.DoneEdgeReturnsToIdle := by
  intro s hleg hrst hst
  rw [step_quiet hleg (emissionDue_of_done hst), quietEdge_done hrst hst]
  rfl

end Sys2Proof.Machine
end

section
/-! PROOF. The session state machine, its blindness to the identifier port, and its deadlines
(43_renderer.md R194, R203, R207). -/

namespace Sys2Proof.Machine

theorem idleEdge_st {p : PortIn} {s : State} (hst : s.st = .idle) :
    (idleEdge p s).st = if p.idValid = true ∧ p.idLast = true then .render else .idle := by
  cases hvalid : p.idValid with
  | false => rw [idleEdge_noByte s hvalid]; simp [hst]
  | true =>
    cases hlast : p.idLast with
    | false => rw [idleEdge_nonLastByte s hvalid hlast]; simp [hst]
    | true => rw [idleEdge_lastByte s hvalid hlast]; rfl

theorem clockStep_reset {s : State} (hrst : (portsNow s).rst = true) :
    clockStep s = some (resetEdge (beginEdge s)) := by
  rw [clockStep_quiet (emissionDue_of_rst hrst), quietEdge_reset hrst]

theorem clockStep_done {s : State} (hrst : (portsNow s).rst = false) (hst : s.st = .done) :
    clockStep s = some (doneEdge (beginEdge s)) := by
  rw [clockStep_quiet (emissionDue_of_done hst), quietEdge_done hrst hst]

theorem clockStep_final {s : State} (hrst : (portsNow s).rst = false) (hst : s.st = .render)
    (ht : tSamples s.cfg ≤ s.t.toNat) : clockStep s = some (finalEdge (beginEdge s)) := by
  rw [clockStep_quiet (emissionDue_of_allEmitted ht), quietEdge_final hrst hst ht]

/-- What an edge without reset can do in RENDER: emit, wait, or wait for the final deadline. -/
theorem clockStep_render_cases {s s' : State} (hrst : (portsNow s).rst = false)
    (hst : s.st = .render) (h : clockStep s = some s') :
    (emissionDue s = true ∧ ∃ r, s' = emissionEdge r s) ∨
    (s.t.toNat < tSamples s.cfg ∧ s' = waitEdge (beginEdge s)) ∨
    (tSamples s.cfg ≤ s.t.toNat ∧ s' = finalEdge (beginEdge s)) := by
  obtain ⟨-, rfl⟩ | ⟨hdue, r, -, rfl⟩ := clockStep_cases h
  · obtain ht | ht := Nat.lt_or_ge s.t.toNat (tSamples s.cfg)
    · exact .inr (.inl ⟨ht, quietEdge_waiting hrst hst ht⟩)
    · exact .inr (.inr ⟨ht, quietEdge_final hrst hst ht⟩)
  · exact .inl ⟨hdue, r, rfl⟩

/-- R194 in RENDER, `t < T`: the session goes on. -/
theorem clockStep_render_goesOn {s s' : State} (hrst : (portsNow s).rst = false)
    (hst : s.st = .render) (h : clockStep s = some s') (ht : s.t.toNat < tSamples s.cfg) :
    s'.st = .render := by
  obtain ⟨-, r, rfl⟩ | ⟨-, rfl⟩ | ⟨hT, -⟩ := clockStep_render_cases hrst hst h
  · exact hst
  · exact hst
  · omega

/-- R194 in RENDER: only an emission edge, with the deadline reached, moves `t`, by one. -/
theorem clockStep_render_t {s s' : State} (hrst : (portsNow s).rst = false)
    (hst : s.st = .render) (h : clockStep s = some s') (hne : s'.t ≠ s.t) :
    s'.t = s.t + 1 ∧ 0 ≤ s.pace := by
  obtain ⟨hdue, r, rfl⟩ | ⟨-, rfl⟩ | ⟨-, rfl⟩ := clockStep_render_cases hrst hst h
  · obtain ⟨-, -, -, -, hpace⟩ := (emissionDue_iff s).1 hdue
    exact ⟨wrap32_toNat_succ s.t, hpace⟩
  · exact absurd rfl hne
  · exact absurd (finalEdge_t _) hne

/-- Settles O43, one edge of `st` at a time. -/
theorem sessionStateMachine : Obligations.SessionStateMachine := by
  intro s s' _ hstep
  refine ⟨fun hrst => ?_, fun hrst => ⟨fun hst => ?_, fun hst => ⟨?_, ?_, ?_, ?_⟩, fun hst => ?_⟩⟩
  · rw [clockStep_reset hrst] at hstep
    cases hstep
    rfl
  · rw [clockStep_idle hrst hst] at hstep
    cases hstep
    rw [idleEdge_st (s := beginEdge s) hst]
    exact ⟨fun hbyte => if_pos hbyte, fun hbyte => if_neg hbyte⟩
  · exact clockStep_render_goesOn hrst hst hstep
  · intro ht hpace
    rw [clockStep_final hrst hst ht.ge, finalEdge_waiting (s := beginEdge s) hpace] at hstep
    cases hstep
    exact hst
  · intro ht hpace
    rw [clockStep_final hrst hst ht.ge, finalEdge_deadline (s := beginEdge s) hpace] at hstep
    cases hstep
    rfl
  · exact clockStep_render_t hrst hst hstep
  · rw [clockStep_done hrst hst] at hstep
    cases hstep
    rfl

section
variable {s : State} {p q : PortIn} {rest : List PortIn} (hrst : p.rst = q.rst)
include hrst

theorem emissionDue_ports :
    emissionDue { s with inputs := p :: rest } = emissionDue { s with inputs := q :: rest } := by
  simp [emissionDue, portsNow, hrst]

theorem quietEdge_ports (hst : s.st ≠ .idle) :
    quietEdge { s with inputs := p :: rest } = quietEdge { s with inputs := q :: rest } := by
  have hbegin : beginEdge { s with inputs := p :: rest } =
      beginEdge { s with inputs := q :: rest } := rfl
  simp only [quietEdge, portsNow, List.headD_cons, hrst, hbegin]
  cases hs : s.st with
  | idle => exact absurd hs hst
  | render => rfl
  | done => rfl

/-- R171: outside IDLE an edge sees nothing of the ports but `rst`. -/
theorem clockStep_ports (hst : s.st ≠ .idle) :
    clockStep { s with inputs := p :: rest } = clockStep { s with inputs := q :: rest } := by
  simp only [clockStep, emissionDue_ports hrst, quietEdge_ports hrst hst]
  rfl

end

theorem finalEdge_st (s : State) : (finalEdge s).st = s.st ∨ (finalEdge s).st = .done := by
  unfold finalEdge
  split
  · exact .inr rfl
  · exact .inl rfl

/-- Settles O44: `clockStep_ports`, and the cases of an edge in RENDER. -/
theorem identifierPortIgnoredWhileBusy : Obligations.IdentifierPortIgnoredWhileBusy := by
  intro s p q rest hbusy hpq
  refine ⟨clockStep_ports hpq hbusy, fun s' hrst hst hstep => ?_⟩
  obtain ⟨-, r, rfl⟩ | ⟨-, rfl⟩ | ⟨ht, rfl⟩ := clockStep_render_cases
    (s := { s with inputs := p :: rest }) hrst hst hstep
  · exact .inl hst
  · exact .inl hst
  · exact (finalEdge_st _).imp (fun h => h.trans hst) fun h => ⟨h, ht⟩

/-- R203: in RENDER with `t < T` a sample is due as soon as its deadline is reached. -/
theorem renderOk_due_iff {s : State} (hrender : renderOk s = true) (hst : s.st = .render)
    (ht : s.t.toNat < tSamples s.cfg) (hrst : (portsNow s).rst = false) :
    emissionDue s = true ↔ 0 ≤ s.pace := by
  have hbusy := renderOk_noUnderrun hrender ht
  rw [emissionDue_iff]
  constructor
  · rintro ⟨-, -, -, -, hpace⟩
    exact hpace
  · intro hpace
    exact ⟨hrst, hst, ht, by omega, hpace⟩

/-- Settles O48: `renderOk_noUnderrun`, `renderOk_due_iff` and the upper bound on `pace`. -/
theorem noUnderrun : Obligations.NoUnderrun := by
  intro s hinv hst ht
  obtain ⟨-, hsession, -⟩ := (invariant_iff s).1 hinv
  obtain ⟨hrender, -⟩ := sessionOk_render hsession hst
  obtain ⟨-, -, -, hhigh, -, -⟩ := (renderOk_iff s).1 hrender
  exact ⟨renderOk_noUnderrun hrender ht, renderOk_due_iff hrender hst ht, fun _ => by omega⟩

end Sys2Proof.Machine
end

section
/-! PROOF. A whole session: the cycles of its emissions and of its end, and the samples it shows
(43_renderer.md R190, R192, R201, R202). -/

namespace Sys2Proof.Machine

theorem clockRun_concat {n : Nat} {s s' : State} (h : clockRun n s = some s') :
    clockRun (n + 1) s = clockStep s' := by
  rw [clockRun_add n 1 h, clockRun]
  cases clockStep s' <;> rfl

/-- What a sink takes in this cycle. -/
def sampleShown (s : State) : List (Word × Word) := if s.sv then [(s.si, s.sd)] else []

theorem samplesTaken_concat {n : Nat} {s s' : State} (h : clockRun n s = some s') :
    samplesTaken (n + 1) s = samplesTaken n s ++ sampleShown s' := by
  induction n generalizing s with
  | zero =>
    cases h
    cases hstep : clockStep s' <;> simp [samplesTaken, sampleShown, hstep]
  | succ n ih =>
    rw [clockRun] at h
    split at h
    · rename_i s₁ hstep
      rw [samplesTaken, samplesTaken.eq_def (n + 1)]
      simp only [hstep, ih h, List.append_assoc]
    · cases h

section
variable {s₀ : State} (hleg : configLegal s₀.cfg = true)
include hleg

/-- A session without reset up to its last deadline. -/
theorem clockRun_inSession (hstart : sessionStarted s₀ = true) {r : Nat}
    (hr : r ≤ emissionCycle s₀.cfg (tSamples s₀.cfg)) (hrst : noResetFor r s₀ = true) :
    ∃ s, clockRun r s₀ = some s ∧ InSession s₀ r s := by
  induction r with
  | zero => exact ⟨s₀, rfl, inSession_start hleg hstart⟩
  | succ r ih =>
    obtain ⟨s, hrun, hs⟩ := ih (Nat.le_of_succ_le hr) (noResetFor_mono (Nat.le_succ r) hrst)
    obtain ⟨s', hstep, hs', -⟩ :=
      inSession_step hleg hs (noResetFor_at (Nat.lt_succ_self r) hrst hs.inputs) hr
    exact ⟨s', (clockRun_concat hrun).trans hstep, hs'⟩

/-- R201: `t` counts the samples whose emission cycle has passed. -/
theorem inSession_t_eq_count {r : Nat} {s : State} (hs : InSession s₀ r s) :
    s.t.toNat = ((List.range (tSamples s₀.cfg)).filter
      fun k => decide (emissionCycle s₀.cfg k < r)).length := by
  have hle : s.t.toNat ≤ tSamples s₀.cfg := hs.cfg ▸ ((renderOk_iff s).1 hs.ok).1
  have hfilter : (List.range (tSamples s₀.cfg)).filter
      (fun k => decide (emissionCycle s₀.cfg k < r)) =
        (List.range (tSamples s₀.cfg)).filter fun k => decide (k < s.t.toNat) :=
    List.filter_congr fun k hk => by
      simp only [inSession_emitted_iff hleg hs, List.mem_range.1 hk, true_and]
  rw [hfilter, ← List.Ico.zero_bot, List.Ico.filter_lt, List.Ico.length, min_eq_right hle,
    Nat.sub_zero]

/-- In sample `k`'s emission cycle the samples before it, and no others, have been emitted. -/
theorem inSession_t_eq {k : Nat} {s : State} (hk : k < tSamples s₀.cfg)
    (hs : InSession s₀ (emissionCycle s₀.cfg k) s) : s.t.toNat = k := by
  have hnot : ¬k < s.t.toNat := fun h => absurd ((inSession_emitted_iff hleg hs k).1 h).2
    (lt_irrefl _)
  have hmono : s.t.toNat < k → emissionCycle s₀.cfg s.t.toNat < emissionCycle s₀.cfg k :=
    emissionCycle_strictMono hleg
  have hself := (inSession_emitted_iff hleg hs s.t.toNat).not.1 (lt_irrefl _)
  omega

theorem inSession_due {k : Nat} {s : State} (hk : k < tSamples s₀.cfg)
    (hs : InSession s₀ (emissionCycle s₀.cfg k) s) (hrst : (portsNow s).rst = false) :
    emissionDue s = true := by
  have ht := inSession_t_eq hleg hk hs
  rw [renderOk_due_iff hs.ok hs.st (by rwa [ht, hs.cfg]) hrst, inSession_pace_iff hleg hs, ht]

/-- R202: the last deadline's edge sets DONE, the next one IDLE, and neither shows a sample. -/
theorem clockRun_sessionEnd (hstart : sessionStarted s₀ = true)
    (hrst : noResetFor (emissionCycle s₀.cfg (tSamples s₀.cfg) + 2) s₀ = true) :
    ∃ s₁ s₂ s₃, clockRun (emissionCycle s₀.cfg (tSamples s₀.cfg)) s₀ = some s₁ ∧
      InSession s₀ (emissionCycle s₀.cfg (tSamples s₀.cfg)) s₁ ∧
      clockRun (emissionCycle s₀.cfg (tSamples s₀.cfg) + 1) s₀ = some s₂ ∧
      s₂.st = .done ∧ s₂.sv = false ∧
      clockRun (emissionCycle s₀.cfg (tSamples s₀.cfg) + 2) s₀ = some s₃ ∧
      s₃.st = .idle ∧ s₃.sv = false := by
  obtain ⟨s₁, hrun, hs₁⟩ :=
    clockRun_inSession hleg hstart le_rfl (noResetFor_mono (Nat.le_add_right _ 2) hrst)
  obtain ⟨ht, hpace⟩ := inSession_last hleg hs₁
  have hrst₁ := noResetFor_at (by omega) hrst hs₁.inputs
  have hstep₁ := clockStep_final hrst₁ hs₁.st (by rw [hs₁.cfg, ht])
  rw [finalEdge_deadline (s := beginEdge s₁) hpace] at hstep₁
  have hrun₂ := (clockRun_concat hrun).trans hstep₁
  have hinputs₂ : s₁.inputs.tail =
      s₀.inputs.drop (emissionCycle s₀.cfg (tSamples s₀.cfg) + 1) := by
    rw [hs₁.inputs, List.tail_drop]
  have hrst₂ := noResetFor_at (s := { beginEdge s₁ with st := .done }) (by omega) hrst hinputs₂
  exact ⟨s₁, _, _, hrun, hs₁, hrun₂, rfl, rfl,
    (clockRun_concat hrun₂).trans (clockStep_done hrst₂ rfl), rfl, rfl⟩

end

/-- Settles O53: every render cycle is one of `InSession`, and in sample `k`'s emission cycle the
sample is due. -/
theorem emissionCycles : Obligations.EmissionCycles := by
  intro s₀ hleg hstart
  refine ⟨fun r hr hrst => ?_, fun k hk hrst => ?_⟩
  · obtain ⟨s, hrun, hs⟩ := clockRun_inSession hleg hstart hr hrst
    exact ⟨s, hrun, hs.st, inSession_t_eq_count hleg hs, hs.pace⟩
  · have hbefore := emissionCycle_strictMono hleg hk
    obtain ⟨s, hrun, hs⟩ :=
      clockRun_inSession hleg hstart hbefore.le (noResetFor_mono (Nat.le_succ _) hrst)
    have hrst' := noResetFor_at (Nat.lt_succ_self _) hrst hs.inputs
    have ht := inSession_t_eq hleg hk hs
    have hdue := inSession_due hleg hk hs hrst'
    obtain ⟨s', hstep, -, ⟨-, r, hr, hsv, hsi, hsd, -⟩ | ⟨hnot, -⟩⟩ :=
      inSession_step hleg hs hrst' hbefore
    · have hword : BitVec.ofNat 32 k = s.t := by rw [← ht, BitVec.ofNat_toNat, BitVec.setWidth_eq]
      exact ⟨s, s', r, hrun, hdue, ht, (clockRun_concat hrun).trans hstep, hword ▸ hr, hsv,
        by rw [hsi, ht], hsd⟩
    · simp [hdue] at hnot

theorem ceilDiv_zero {d : Nat} (hd : 0 < d) : ceilDiv 0 d = 0 :=
  Nat.div_eq_of_lt (by omega)

theorem ceilDiv_mul_of_dvd {n d : Nat} (hd : 0 < d) (h : d ∣ n) : ceilDiv n d * d = n := by
  have hlow := le_ceilDiv_mul n d hd
  have hhigh := ceilDiv_mul_lt n d hd
  obtain ⟨q, rfl⟩ := h
  have hq : q ≤ ceilDiv (d * q) d := by nlinarith
  have hq' : ceilDiv (d * q) d < q + 1 := by nlinarith
  rw [show ceilDiv (d * q) d = q by omega, Nat.mul_comm]

/-- Settles O54: `clockRun_sessionEnd`, and sample 0's emission cycle is `L`. -/
theorem sessionEndCycles : Obligations.SessionEndCycles := by
  intro s₀ hleg hstart hrst
  have hR := (legal_parameters hleg).1
  obtain ⟨s₁, s₂, s₃, hrun₁, hs₁, hrun₂, hst₂, -, hrun₃, hst₃, -⟩ :=
    clockRun_sessionEnd hleg hstart hrst
  refine ⟨s₁, s₂, s₃, hrun₁, hs₁.st, hrun₂, decide_eq_true hst₂, hrun₃, hst₃, ?_, ?_,
    ceilDiv_mul_of_dvd hR⟩
  · simp [portsOut, hst₃]
  · rw [emissionCycle, emissionCycle, Nat.zero_mul, ceilDiv_zero hR, Nat.add_zero]

/-- The first `n` samples of a session whose sample `k` is `f k` (R190). -/
def samplesBefore (f : Nat → Result) (n : Nat) : List (Word × Word) :=
  (List.range n).map fun k => (BitVec.ofNat 32 k, (f k).v)

theorem samplesBefore_succ (f : Nat → Result) (n : Nat) :
    samplesBefore f (n + 1) = samplesBefore f n ++ [(BitVec.ofNat 32 n, (f n).v)] := by
  simp [samplesBefore, List.range_succ]

/-- Up to render cycle `r`, that cycle included, the samples before `t` have been shown. -/
theorem samplesTaken_inSession {s₀ : State} (hleg : configLegal s₀.cfg = true)
    (hstart : sessionStarted s₀ = true) {f : Nat → Result}
    (hf : ∀ k, combine s₀.cfg s₀.idxA s₀.idxB (BitVec.ofNat 32 k) = some (f k))
    {r : Nat} {s : State} (hr : r ≤ emissionCycle s₀.cfg (tSamples s₀.cfg))
    (hrst : noResetFor r s₀ = true) (hrun : clockRun r s₀ = some s) :
    samplesTaken (r + 1) s₀ = samplesBefore f s.t.toNat := by
  induction r generalizing s with
  | zero =>
    rw [samplesTaken_concat hrun]
    cases hrun
    simp only [sessionStarted, decide_eq_true_eq] at hstart
    obtain ⟨-, ht, -, -, hsv, -⟩ := hstart
    rw [sampleShown, hsv, ht]
    rfl
  | succ r ih =>
    have hr' := Nat.le_of_succ_le hr
    have hrst' := noResetFor_mono (Nat.le_succ r) hrst
    obtain ⟨s₁, hrun₁, hs₁⟩ := clockRun_inSession hleg hstart hr' hrst'
    obtain ⟨s', hstep, -, hcases⟩ :=
      inSession_step hleg hs₁ (noResetFor_at (Nat.lt_succ_self r) hrst hs₁.inputs) hr
    obtain rfl : s' = s := Option.some.inj
      (hstep.symm.trans ((clockRun_concat hrun₁).symm.trans hrun))
    rw [samplesTaken_concat hrun, ih hr' hrst' hrun₁, sampleShown]
    obtain ⟨-, res, hres, hsv, hsi, hsd, ht, -⟩ | ⟨-, hsv, ht⟩ := hcases
    · have hword : BitVec.ofNat 32 s₁.t.toNat = s₁.t := by
        rw [BitVec.ofNat_toNat, BitVec.setWidth_eq]
      have hvalue := hf s₁.t.toNat
      rw [hword, hres] at hvalue
      cases hvalue
      rw [ht, samplesBefore_succ, hsv, hsi, hsd, if_pos rfl, hword]
    · rw [hsv, ht]
      exact List.append_nil _

/-- Settles O55: `samplesTaken_inSession` up to the last render cycle, and the two cycles after it
show nothing. -/
theorem sessionEmitsTheSampleSequence : Obligations.SessionEmitsTheSampleSequence := by
  intro s₀ hleg hstart hrst
  choose f hf using fun k => combine_isSome hleg s₀.idxA s₀.idxB (BitVec.ofNat 32 k)
  obtain ⟨s₁, s₂, s₃, hrun₁, hs₁, hrun₂, -, hsv₂, hrun₃, hst₃, hsv₃⟩ :=
    clockRun_sessionEnd hleg hstart hrst
  have htaken := samplesTaken_inSession hleg hstart hf le_rfl
    (noResetFor_mono (Nat.le_add_right _ 2) hrst) hrun₁
  refine ⟨f, fun k _ => hf k, ?_, s₃, hrun₃, hst₃, hsv₃⟩
  rw [samplesTaken_concat hrun₂, htaken, (inSession_last hleg hs₁).1, sampleShown, hsv₂]
  exact List.append_nil _

end Sys2Proof.Machine
end

section
/-! PROOF. Progress under the invariant (60_exceptions.md R230), and which refusal names which
condition of R231. -/

namespace Sys2Proof.Machine

/-- Settles O40: each of the three cases of a step under the invariant ends in a next state. -/
theorem stepNeverStops : Obligations.StepNeverStops := by
  intro s hinv
  obtain ⟨-, hquiet⟩ | ⟨-, ev', hword, -⟩ | ⟨-, r, -, hemit⟩ := step_cases hinv
  · exact ⟨_, hquiet⟩
  · exact ⟨_, hword⟩
  · exact ⟨_, hemit⟩

theorem elaborationRefusal_illegalDescriptor_iff (c : Config) :
    elaborationRefusal c = some .illegalDescriptor ↔ descriptorsLegal c = false := by
  unfold elaborationRefusal
  cases descriptorsLegal c <;> cases parametersLegal c <;> simp

theorem elaborationRefusal_illegalConfig_iff (c : Config) :
    elaborationRefusal c = some .illegalConfig ↔
      descriptorsLegal c = true ∧ parametersLegal c = false := by
  unfold elaborationRefusal
  cases descriptorsLegal c <;> cases parametersLegal c <;> simp

/-- A word is refused only where it does not decode. -/
theorem runWord_refused {cat : Cat} {s : State} {r : Refusal} (h : runWord cat s = .refused r) :
    ∃ e, r = .malformedWord e := by
  unfold runWord at h
  split at h
  · cases h
  · split at h
    · next e _ =>
      cases h
      exact ⟨e, rfl⟩
    · exact absurd h (exec_ne_refused _ _ _)

/-- The steps around the words refuse nothing, so a refusal is a word's. -/
theorem emissionStep_refused {s : State} {r : Refusal} (h : emissionStep s = .refused r) :
    ∃ e, r = .malformedWord e := by
  unfold emissionStep at h
  split at h
  · cases h
  · split at h
    · exact runWord_refused h
    · cases h
  · split at h
    · exact runWord_refused h
    · cases h

/-- Every refusal but that of a malformed word is the elaboration check's. -/
theorem step_refused_iff {s : State} {r : Refusal} (hr : ∀ e, r ≠ .malformedWord e) :
    step s = .refused r ↔ elaborationRefusal s.cfg = some r := by
  refine ⟨fun h => ?_, step_of_elaborationRefusal⟩
  unfold step at h
  split at h
  · next r' hrefusal =>
    cases h
    exact hrefusal
  · split at h
    · obtain ⟨e, he⟩ := emissionStep_refused h
      exact absurd he (hr e)
    · cases h

theorem descriptorsLegal_eq_false_iff (c : Config) :
    descriptorsLegal c = false ↔ ∃ cat i, descriptorWf (descriptorOf c cat i) = false := by
  simp only [← Bool.not_eq_true, descriptorsLegal_iff, not_forall]

/-- Settles O60: both names are the elaboration check's alone, and it looks at the descriptors
before the numbers. -/
theorem refusalsNameTheirCondition : Obligations.RefusalsNameTheirCondition := by
  intro s
  constructor
  · rw [step_refused_iff (by simp), elaborationRefusal_illegalDescriptor_iff,
      descriptorsLegal_eq_false_iff]
  · rw [step_refused_iff (by simp), elaborationRefusal_illegalConfig_iff, descriptorsLegal_iff,
      ← Bool.not_eq_true, parametersLegal_iff]

end Sys2Proof.Machine
end

section
/-! PROOF. The stops on a stack outside WF's depths (60_exceptions.md R236, 41_formula_eval.md
R141). -/

namespace Sys2Proof.Machine

theorem pushWord_of_full {s : State} (v : Word) (h : stackDepth ≤ s.ev.stack.length) :
    pushWord v s = .fault .stackOverflow :=
  if_neg (Nat.not_lt.2 h)

theorem binaryWord_of_short {s : State} (f : Word → Word → Word) (dz sa : Word → Word → Bool)
    (h : s.ev.stack.length < 2) : binaryWord f dz sa s = .fault .stackUnderflow := by
  unfold binaryWord
  rw [popTwo_eq_none.2 h]

theorem returnResult_of_empty {s : State} (h : s.ev.stack = []) :
    returnResult s = .fault .stackUnderflow := by
  unfold returnResult
  rw [h]

/-- Every word that pops two entries is a `binaryWord`. -/
theorem exec_binary {i : Instr} (hi : i.pops = 2) (s : State) :
    ∃ f dz sa, exec i s = binaryWord f dz sa s := by
  cases i
  case endOp | t | const => cases hi
  all_goals exact ⟨_, _, _, rfl⟩

/-- Every word that pops nothing is a `pushWord`. -/
theorem exec_leaf {i : Instr} (hi : i.pops = 0) (s : State) : ∃ v, exec i s = pushWord v s := by
  cases i
  case t | const => exact ⟨_, rfl⟩
  all_goals cases hi

/-- Settles O16: a word is END, a `binaryWord` or a `pushWord`, and each of the three operations
names its own stop. -/
theorem stackLimitsStopByName : Obligations.StackLimitsStopByName := by
  refine ⟨fun s => returnResult_of_empty, fun s i hi hshort => ?_, fun s i hi hfull => ?_⟩
  · obtain ⟨f, dz, sa, he⟩ := exec_binary hi s
    rw [he, binaryWord_of_short f dz sa hshort]
  · obtain ⟨v, he⟩ := exec_leaf hi s
    rw [he, pushWord_of_full v hfull]

end Sys2Proof.Machine
end

section
/-! PROOF. The reset edge, and the cycles without an offer after it (70_reset_and_hazards.md R260,
R261, R269). -/

namespace Sys2Proof.Machine

/-- Settles O27: `id_ready` is 0 while `rst` is 1, and no sample is due, so the edge is
`resetEdge`. -/
theorem resetEdgeResetsEveryRegister : Obligations.ResetEdgeResetsEveryRegister := by
  intro s hleg hrst
  refine ⟨?_, ?_⟩
  · rw [← Bool.not_eq_true, byteAccepted_iff]
    rintro ⟨-, -, hnot⟩
    simp [hrst] at hnot
  · rw [step_quiet hleg (emissionDue_of_rst hrst), quietEdge_reset hrst]
    rfl

/-- What holds of quiet ports and of the next `n + 1` port values holds of this cycle's ports and of
the `n` values after them. -/
theorem forall_ports_succ {P : PortIn → Prop} {n : Nat} {s : State} (hquiet : P PortIn.quiet)
    (h : ∀ p ∈ s.inputs.take (n + 1), P p) :
    P (portsNow s) ∧ ∀ p ∈ s.inputs.tail.take n, P p := by
  unfold portsNow
  cases hin : s.inputs with
  | nil => simpa using hquiet
  | cons p rest => simpa [hin] using h

/-- In IDLE, an edge without an offer, with or without reset, leads to IDLE and shows no sample. -/
theorem clockStep_idle_noByte {s : State} (hst : s.st = .idle)
    (hvalid : (portsNow s).idValid = false) :
    ∃ s', clockStep s = some s' ∧ s'.st = .idle ∧ s'.sv = false ∧ s'.inputs = s.inputs.tail := by
  cases hrst : (portsNow s).rst with
  | true => exact ⟨_, clockStep_reset hrst, rfl, rfl, rfl⟩
  | false =>
    refine ⟨_, clockStep_idle hrst hst, ?_⟩
    rw [idleEdge_noByte _ hvalid]
    exact ⟨hst, rfl, rfl⟩

/-- From IDLE, no sample shown, cycles without an offer show no sample and end in IDLE. -/
theorem silent_while_noByte {n : Nat} {s : State} (hst : s.st = .idle) (hsv : s.sv = false)
    (hvalid : ∀ p ∈ s.inputs.take n, p.idValid = false) :
    samplesTaken n s = [] ∧ ∃ s', clockRun n s = some s' ∧ s'.st = .idle := by
  induction n generalizing s with
  | zero => exact ⟨rfl, s, rfl, hst⟩
  | succ n ih =>
    obtain ⟨hnow, hlater⟩ := forall_ports_succ (P := fun p => p.idValid = false) rfl hvalid
    obtain ⟨s₁, hstep, hst₁, hsv₁, hin₁⟩ := clockStep_idle_noByte hst hnow
    rw [← hin₁] at hlater
    obtain ⟨hsamples, hrun⟩ := ih hst₁ hsv₁ hlater
    rw [clockRun_succ n hstep]
    exact ⟨by simp [samplesTaken, hsv, hstep, hsamples], hrun⟩

/-- Settles O56: the reset edge leads to IDLE, no sample shown, and `silent_while_noByte` goes on
from there. -/
theorem resetAbortsTheSession : Obligations.ResetAbortsTheSession := by
  intro s s' n hrst hvalid hstep
  rw [clockStep_reset hrst] at hstep
  cases hstep
  obtain ⟨hsamples, s₁, hrun, hst₁⟩ :=
    silent_while_noByte (s := resetEdge (beginEdge s)) rfl rfl hvalid
  refine ⟨hsamples, fun s'' hrun'' => ?_⟩
  rw [hrun] at hrun''
  cases hrun''
  simp [portsOut, hst₁]

/-- At rest in IDLE, an edge without reset and without an offer only uses up its port values. -/
theorem clockStep_atRest {s : State} (hst : s.st = .idle) (hev : s.ev = Evaluator.rest)
    (hsv : s.sv = false) (hrst : (portsNow s).rst = false) (hvalid : (portsNow s).idValid = false) :
    clockStep s = some { s with inputs := s.inputs.tail } := by
  rw [clockStep_idle hrst hst, idleEdge_noByte _ hvalid, beginEdge, ← hsv, ← hev]

/-- Settles O49, by induction on the cycles; ID_PENDING is read off `id_cnt`. -/
theorem partialIdentifierStays : Obligations.PartialIdentifierStays := by
  intro n s hst hev hsv hports
  refine ⟨?_, fun hcnt => by rw [statusWord_idPending, decide_eq_true hcnt]⟩
  induction n generalizing s with
  | zero => rfl
  | succ n ih =>
    obtain ⟨⟨hrst, hvalid⟩, hlater⟩ :=
      forall_ports_succ (P := fun p => p.rst = false ∧ p.idValid = false) ⟨rfl, rfl⟩ hports
    rw [clockRun_succ n (clockStep_atRest hst hev hsv hrst hvalid),
      ih { s with inputs := s.inputs.tail } hst hev hsv hlater]
    simp

end Sys2Proof.Machine
end

section
/-! PROOF. A placed word: the descriptor around it is well-formed, its operands are there, and the
step runs it (70_reset_and_hazards.md R263, log entry 4). -/

namespace Sys2Proof.Machine

/-- The program around a placed instruction: a `T` for each operand, the instruction, and END. -/
def programAround (i : Instr) : List Instr :=
  List.replicate i.pops .t ++ i :: (if i = .endOp then [] else [.endOp])

theorem descriptorAround_encode (i : Instr) :
    descriptorAround (encode i) = ((programAround i).map encode, i.pops) := by
  unfold descriptorAround
  rw [(decode_ok_iff _ i).2 rfl]
  cases i <;> rfl

theorem programAround_checks (i : Instr) : checkFrom 0 (programAround i) = .ok () := by
  unfold programAround
  rcases pops_cases i with rfl | hi | hi
  · rfl
  · rw [if_neg (ne_endOp_of_pops (by omega)), hi]
    exact (checkFrom_leaf hi _ _).2 ⟨by decide, rfl⟩
  · rw [if_neg (ne_endOp_of_pops (by omega)), hi]
    exact (checkFrom_binary hi _ _).2 ⟨by decide, rfl⟩

theorem programAround_length_le (i : Instr) : (programAround i).length ≤ maxOps := by
  rcases pops_cases i with rfl | hi | hi
  · decide
  all_goals simp [programAround, hi, ne_endOp_of_pops (by omega : i.pops ≠ 1), maxOps]

theorem descriptorWf_around (i : Instr) : descriptorWf ((programAround i).map encode) = true :=
  (descriptorWf_iff _).2 ⟨_, rfl, programAround_length_le i, programAround_checks i⟩

/-- The placed word stands after its operands. -/
theorem programAround_getElem? (i : Instr) : (programAround i)[i.pops]? = some i := by
  simp [programAround]

theorem withFetchWord_encode (i : Instr) (s : State) :
    s.withFetchWord 32 (encode i).toNat = { s with
      cfg := uniformConfig ((programAround i).map encode)
      inputs := [], st := .render, t := 0, pace := 0, lat := 0
      ev := { phase := .formulaA, k := i.pops, stack := List.replicate i.pops 0, dz := false,
              sa := false, result := none } } := by
  rw [State.withFetchWord, Nat.mod_eq_of_lt (encode i).isLt, BitVec.ofNat_toNat, BitVec.setWidth_eq,
    placeWord, descriptorAround_encode]

section
variable (i : Instr) (s : State)

theorem withFetchWord_legal : configLegal (s.withFetchWord 32 (encode i).toNat).cfg = true := by
  rw [withFetchWord_encode]
  exact configLegal_uniform (descriptorWf_around i)

theorem withFetchWord_due : emissionDue (s.withFetchWord 32 (encode i).toNat) = true := by
  rw [withFetchWord_encode, emissionDue_iff]
  exact ⟨rfl, rfl, by simp [uniformConfig, tSamples], rfl, le_refl 0⟩

theorem fetchWord_withFetchWord :
    fetchWord .A (s.withFetchWord 32 (encode i).toNat) = some (encode i) := by
  have hentry (d : Descriptor) (j : Fin 7) : descriptorOf (uniformConfig d) .A j = d := by
    fin_cases j <;> rfl
  rw [withFetchWord_encode, fetchWord, romRead, hentry, List.getElem?_map, programAround_getElem?]
  rfl

/-- The step runs the placed word. -/
theorem step_withFetchWord :
    step (s.withFetchWord 32 (encode i).toNat) =
      exec i (s.withFetchWord 32 (encode i).toNat) := by
  rw [step_of_due (withFetchWord_legal i s) (withFetchWord_due i s)]
  have hphase : emissionStep (s.withFetchWord 32 (encode i).toNat) =
      runWord .A (s.withFetchWord 32 (encode i).toNat) := by
    rw [withFetchWord_encode]
    rfl
  rw [hphase, runWord_of_decode (fetchWord_withFetchWord i s) ((decode_ok_iff _ i).2 rfl)]

end

/-- With exactly its operands on the stack, a word completes. -/
theorem exec_completes {i : Instr} {s : State} (h : s.ev.stack.length = i.pops) :
    ∃ s', exec i s = .next s' := by
  rcases pops_cases i with rfl | hi | hi
  · obtain ⟨v, hv⟩ := List.length_eq_one_iff.1 h
    exact ⟨_, returnResult_next.2 ⟨v, [], hv, rfl⟩⟩
  · obtain ⟨v, he⟩ := exec_leaf hi s
    exact ⟨_, he.trans (pushWord_of_room v (by rw [h, hi]; decide))⟩
  · obtain ⟨b, a, hab⟩ := List.length_eq_two.1 (h.trans hi)
    obtain ⟨f, dz, sa, he⟩ := exec_binary hi s
    exact ⟨_, he.trans (binaryWord_of_stack f dz sa hab)⟩

/-- Settles O24: `step_withFetchWord`, and the placed word has its operands. -/
theorem placedWordIsRunNext : Obligations.PlacedWordIsRunNext := by
  intro i s
  have hoperands : (s.withFetchWord 32 (encode i).toNat).ev.stack.length = i.pops := by
    rw [withFetchWord_encode]
    exact List.length_replicate
  rw [step_withFetchWord]
  exact ⟨rfl, exec_completes hoperands⟩

end Sys2Proof.Machine
end

section
/-! PROOF. Two states that differ in the diagnostics alone (70_reset_and_hazards.md R264,
43_renderer.md R199). -/

namespace Sys2Proof.Machine

/-- `s` with the diagnostics of `d`: the registers that keep a session's values in IDLE
(R199), as the statement of R264 lists them. -/
def withDiagnostics (d s : State) : State :=
  { s with
    idxA := d.idxA, idxB := d.idxB, idLen := d.idLen, nonstd := d.nonstd, degen := d.degen,
    shamt := d.shamt, sd := d.sd, si := d.si }

/-- Where a diagnostic of `s` has an effect, `d` holds the same one: an index in RENDER, where it
selects a formula, and a sample while it is shown. -/
structure AgreesWhereUsed (d s : State) : Prop where
  indices : s.st = .render → d.idxA = s.idxA ∧ d.idxB = s.idxB
  sample : s.sv = true → d.sd = s.sd ∧ d.si = s.si

theorem AgreesWhereUsed.refl (s : State) : AgreesWhereUsed s s :=
  ⟨fun _ => ⟨rfl, rfl⟩, fun _ => ⟨rfl, rfl⟩⟩

/-- After an edge that shows no sample, only the indices count. -/
theorem AgreesWhereUsed.of_noSample {d s : State} (hsv : s.sv = false)
    (h : s.st = .render → d.idxA = s.idxA ∧ d.idxB = s.idxB) : AgreesWhereUsed d s :=
  ⟨h, by simp [hsv]⟩

theorem AgreesWhereUsed.of_idle {d s : State} (hst : s.st = .idle) (hsv : s.sv = false) :
    AgreesWhereUsed d s :=
  .of_noSample hsv (by simp [hst])

theorem AgreesWhereUsed.sampleShown_eq {d s : State} (h : AgreesWhereUsed d s) :
    sampleShown (withDiagnostics d s) = sampleShown s := by
  cases hsv : s.sv with
  | false => simp [sampleShown, withDiagnostics, hsv]
  | true =>
    obtain ⟨hsd, hsi⟩ := h.sample hsv
    simp [sampleShown, withDiagnostics, hsv, hsd, hsi]

theorem emissionDue_withDiagnostics (d s : State) :
    emissionDue (withDiagnostics d s) = emissionDue s := rfl

theorem finalEdge_withDiagnostics (d s : State) :
    finalEdge (withDiagnostics d s) = withDiagnostics d (finalEdge s) := by
  obtain hpace | hpace := le_or_gt 0 s.pace
  · rw [finalEdge_deadline hpace, finalEdge_deadline (s := withDiagnostics d s) hpace]
    rfl
  · rw [finalEdge_waiting hpace, finalEdge_waiting (s := withDiagnostics d s) hpace]
    rfl

/-- An edge that emits nothing takes states that differ in unused diagnostics to such states: the
reset edge and the session-start edge set every diagnostic that counts after them, and the other
edges change none. -/
theorem quietEdge_withDiagnostics {d s : State} (h : AgreesWhereUsed d s) :
    ∃ d', AgreesWhereUsed d' (quietEdge s) ∧
      quietEdge (withDiagnostics d s) = withDiagnostics d' (quietEdge s) := by
  obtain ⟨hrst, e⟩ | ⟨hrst, hst, hvalid, e⟩ | ⟨hrst, hst, hvalid, hlast, e⟩ |
    ⟨hrst, hst, hvalid, hlast, e⟩ | ⟨hrst, hst, ht, e⟩ | ⟨hrst, hst, ht, e⟩ | ⟨hrst, hst, e⟩ :=
    quietEdge_cases s <;> rw [e]
  · refine ⟨_, .refl _, ?_⟩
    rw [quietEdge_reset (s := withDiagnostics d s) hrst]
    rfl
  · refine ⟨d, .of_idle hst rfl, ?_⟩
    rw [quietEdge_idle (s := withDiagnostics d s) hrst hst]
    exact idleEdge_noByte _ hvalid
  · refine ⟨d, .of_idle hst rfl, ?_⟩
    rw [quietEdge_idle (s := withDiagnostics d s) hrst hst]
    exact idleEdge_nonLastByte _ hvalid hlast
  · refine ⟨startSession (portsNow s).idData (beginEdge (withDiagnostics d s)),
      .of_noSample rfl fun _ => ⟨rfl, rfl⟩, ?_⟩
    rw [quietEdge_idle (s := withDiagnostics d s) hrst hst]
    exact idleEdge_lastByte _ hvalid hlast
  · exact ⟨d, .of_noSample rfl fun _ => h.indices hst,
      quietEdge_waiting (s := withDiagnostics d s) hrst hst ht⟩
  · refine ⟨d, .of_noSample (finalEdge_sv _) fun _ => ?_, ?_⟩
    · rw [finalEdge_idxA, finalEdge_idxB]
      exact h.indices hst
    · rw [quietEdge_final (s := withDiagnostics d s) hrst hst ht]
      exact finalEdge_withDiagnostics d (beginEdge s)
  · exact ⟨d, .of_idle rfl rfl, quietEdge_done (s := withDiagnostics d s) hrst hst⟩

/-- A clock edge takes states that differ in unused diagnostics to such states; an emission edge
selects by the same indices and shows the same sample. -/
theorem clockStep_withDiagnostics {d s : State} (hleg : configLegal s.cfg = true)
    (h : AgreesWhereUsed d s) :
    ∃ s' d', clockStep s = some s' ∧ s'.cfg = s.cfg ∧ AgreesWhereUsed d' s' ∧
      clockStep (withDiagnostics d s) = some (withDiagnostics d' s') := by
  have hdue' := emissionDue_withDiagnostics d s
  cases hdue : emissionDue s with
  | false =>
    obtain ⟨d', h', e⟩ := quietEdge_withDiagnostics h
    exact ⟨_, d', clockStep_quiet hdue, quietEdge_cfg s, h',
      (clockStep_quiet (hdue'.trans hdue)).trans (congrArg some e)⟩
  | true =>
    obtain ⟨-, hst, -⟩ := (emissionDue_iff s).1 hdue
    obtain ⟨hA, hB⟩ := h.indices hst
    obtain ⟨r, hr⟩ := combine_isSome hleg s.idxA s.idxB s.t
    refine ⟨_, emissionEdge r (withDiagnostics d s), clockStep_due hdue hr, rfl,
      ⟨fun _ => ⟨hA, hB⟩, fun _ => ⟨rfl, rfl⟩⟩, clockStep_due (hdue'.trans hdue) ?_⟩
    rw [← hr, ← hA, ← hB]
    rfl

/-- Over any number of cycles, states that differ in unused diagnostics show the same samples and
stay such states. -/
theorem clockRun_withDiagnostics (n : Nat) {d s : State} (hleg : configLegal s.cfg = true)
    (h : AgreesWhereUsed d s) :
    samplesTaken n (withDiagnostics d s) = samplesTaken n s ∧
      ∃ s' d', clockRun n s = some s' ∧
        clockRun n (withDiagnostics d s) = some (withDiagnostics d' s') := by
  induction n generalizing d s with
  | zero => exact ⟨rfl, s, d, rfl, rfl⟩
  | succ n ih =>
    obtain ⟨s', d', hstep, hcfg, h', hstep'⟩ := clockStep_withDiagnostics hleg h
    rw [← hcfg] at hleg
    obtain ⟨hsamples, hrun⟩ := ih hleg h'
    refine ⟨?_, by rw [clockRun_succ n hstep, clockRun_succ n hstep']; exact hrun⟩
    have hshown := h.sampleShown_eq
    simp only [sampleShown] at hshown
    simp only [samplesTaken, hstep, hstep', hsamples, hshown]

/-- Settles O57: in IDLE no diagnostic is used, `clockRun_withDiagnostics` relates the two runs, and
`id_ready`, `sample_valid`, `busy` and `done` read no diagnostic. -/
theorem diagnosticsDoNotAffectLaterSessions : Obligations.DiagnosticsDoNotAffectLaterSessions := by
  intro s d n hleg hst hsv _
  obtain ⟨hsamples, a, d', hrun, hrun'⟩ :=
    clockRun_withDiagnostics n hleg (AgreesWhereUsed.of_idle (d := d) hst hsv)
  exact ⟨hsamples, a, withDiagnostics d' a, hrun, hrun', rfl, rfl, rfl, rfl⟩

end Sys2Proof.Machine
end
